-- ==== Sys2Proof/Word.lean ====
section
/-! DEFINITION. The word types of the engine: 32-bit words (00_scope.md R5, R6), bytes, and byte offsets in the
0x400-byte register window (20_memory.md R30). Their `+`, `&&&`, `^^^`, `|||`, `~~~` are BitVec's: addition modulo 2^32
(R10) and the bitwise functions on all 32 bits (R9). -/

namespace Sys2Proof

/-- An unsigned 32-bit word (R6). -/
abbrev Word := BitVec 32

/-- A byte of a message or of a digest. -/
abbrev Byte := BitVec 8

/-- A byte offset `off` with `0 <= off < 0x400` in the engine's window (R30). -/
abbrev Offset := BitVec 10

/-- Eight words: the hash state H and the working variables V (R14, R15). -/
abbrev Words8 := Vector Word 8

/-- Sixteen words: the message block input M (R19). -/
abbrev Words16 := Vector Word 16

/-- Sixty-four words: the message schedule W and the round constants K (R17, R18). -/
abbrev Words64 := Vector Word 64

end Sys2Proof
end

