-- ==== Sys2Proof/Syntax.lean ====
section
/-! DEFINITION. The commands of the engine, which are its instructions (30_encoding.md R50), and the host accesses of
R56 with the reset events of 70_reset_and_hazards.md R113. -/

namespace Sys2Proof

/-- The eight commands of the opcode map (R50). They have no operand fields: every operand is implicit engine
state (R49). -/
inductive Instr where
  /-- 0x00000000, R58 -/
  | nop
  /-- 0x00000001, R59 -/
  | init
  /-- 0x00000002, R64 -/
  | expand
  /-- 0x00000003, R72 -/
  | loadv
  /-- 0x00000004, R73 -/
  | round
  /-- 0x00000005, R74 -/
  | compress
  /-- 0x00000006, R78 -/
  | accum
  /-- 0x00000007, R79 -/
  | block
deriving DecidableEq, Repr

/-- Width of a host access. Only `w32` is inside the interface (20_memory.md R35). -/
inductive Width where
  | w8
  | w16
  | w32
  | w64
deriving DecidableEq, Repr

/-- What the outside world does to one engine instance, one entry an access or event: the forms of R56, and reset
asserted and released (R113). The data of a write is a word: a write of another width is refused before its data
matters (R35). -/
inductive HostOp where
  /-- `rd OFF`: one read, its value observed. -/
  | rd (width : Width) (off : Offset)
  /-- `wr OFF, VAL`: one write. -/
  | wr (width : Width) (off : Offset) (v : Word)
  /-- `expect OFF, VAL`: one 32-bit read, and the program asserts that its value is `v`. -/
  | expect (off : Offset) (v : Word)
  /-- `wait`: repeat `rd 0x008` until bit 0 of the value is 0. -/
  | wait
  /-- The platform asserts reset. -/
  | assertReset
  /-- The platform releases reset. -/
  | releaseReset
deriving DecidableEq, Repr

/-- Whether an entry is an event of the reset line, and not a host access. -/
def HostOp.isReset : HostOp → Bool
  | .rd _ _ => false
  | .wr _ _ _ => false
  | .expect _ _ => false
  | .wait => false
  | .assertReset => true
  | .releaseReset => true

end Sys2Proof
end

