-- ==== Sys2Proof/Config.lean ====
section
/-! DEFINITION. What the spec leaves open for an implementation and the engine needs: two free values. Neither has a
body, so nothing can be proved of a value of it. -/

namespace Sys2Proof

/-- The unspecified word `draw()` of a read of M, H, V or W while BUSY is 1 (20_memory.md R41, 93 U1). The n-th draw of
a run is `Config.draw n` (log entry 3). -/
opaque Config.draw : Nat → Word

/-- The open latency `LAT_<op>` (70_reset_and_hazards.md R122, 93 U2), as a model without time sees it: how many host
events fall between the accepted CMD write and the completion of the `n`-th command issued, if it is `i`
(log entry 2). It is a natural number, so every command completes (R124). -/
opaque Config.latency : Instr → Nat → Nat

end Sys2Proof
end

