-- ==== Sys2Proof/Machine/State.lean ====
section
/-! DEFINITION. The state of one engine instance (10_state.md R13) with the host accesses still to come, the reasons a step
can stop, and the state after reset (R29). State is plain data. -/

namespace Sys2Proof.Machine

/-- The machine's state. The first group is the architectural state of R13. BUSY is no field: BUSY = 1 exactly when
PEND is not none (R25), so it is computed from `pend` (`State.busy`). K, IV and ID are constants
(Machine/Constants.lean), CMD stores nothing (R23). The second group is the model's own. -/
structure State where
  /-- Hash state H[0..7] (R14). -/
  h : Words8
  /-- Working variables V[0..7], the source's a..h (R15). -/
  v : Words8
  /-- Message schedule W[0..63] (R18). -/
  w : Words64
  /-- Message block input M[0..15] (R19). -/
  m : Words16
  /-- Round counter RC, 7 bits (R20). -/
  rc : BitVec 7
  /-- Pending command PEND (R25). -/
  pend : Option Instr
  /-- Sticky flag ILL (R22). -/
  ill : Bool
  /-- Sticky flag OVR (R22). -/
  ovr : Bool
  /-- Sticky flag ACCERR (R22). -/
  accerr : Bool
  /-- Model's own: reset is asserted (R113). -/
  inReset : Bool
  /-- Model's own: host accesses that still fall before the pending command completes (R122). -/
  delay : Nat
  /-- Model's own: commands issued so far, the index of `Config.latency`. -/
  issues : Nat
  /-- Model's own: unspecified values drawn so far, the index of `Config.draw`. -/
  draws : Nat
  /-- Model's own: what the host and the reset line still do, in order (R42, R56). -/
  script : List HostOp
  /-- Model's own: the values the host's `rd` accesses have read, oldest first (R56). -/
  observed : List Word
deriving DecidableEq, Repr

/-- The sticky error flags, the engine's only error causes (60_exceptions.md R97). -/
inductive Flag where
  /-- STATUS[1]: a command word was rejected. -/
  | ill
  /-- STATUS[2]: a write to CMD or M was dropped because BUSY was 1. -/
  | ovr
  /-- STATUS[3]: a write was dropped because its offset was misaligned, reserved or read-only. -/
  | accerr
deriving DecidableEq, Repr

/-- The class of an offset (20_memory.md R32). -/
inductive RegClass where
  | misaligned
  | id
  | cmd
  | status
  | m (i : Fin 16)
  | h (j : Fin 8)
  | v (j : Fin 8)
  | w (i : Fin 64)
  | k (i : Fin 64)
  | rsvd
deriving DecidableEq, Repr

/-- Whose move is next (20_memory.md R42). -/
inductive Move where
  /-- The engine's completion step of the pending command (40_control.md R57). -/
  | engine (i : Instr)
  /-- The next entry of `script`. -/
  | host (op : HostOp)
  /-- Nothing is pending and the host does nothing more (60_exceptions.md R111). -/
  | idle
deriving DecidableEq, Repr

/-- The reasons the machine stops with a fault. The engine raises none: it has no traps (R99) and no completion can
fail (R97). -/
inductive Fault where
  /-- Raised by the host's `expect OFF, VAL` when the value read is not VAL: the host program's own assertion failed
  (R56), and the program goes no further. Safe: the machine stops. -/
  | expectationFailed
deriving DecidableEq, Repr

/-- The reasons an input has no meaning. No command of the engine is refused. -/
inductive Refusal where
  /-- Raised by an arm of `exec` whose command has no meaning yet. No arm raises it. Safe. -/
  | notModelled (mnemonic : String)
  /-- Raised by a host access of 8, 16 or 64 bits: "this spec gives it no meaning, and a model refuses a program that
  issues one" (R35, U5). Safe. -/
  | accessWidth
  /-- Raised by a host access while reset is asserted: "a model refuses a program that accesses the window during
  reset" (R113, U6). Safe. -/
  | accessDuringReset
  /-- Raised by `Platform` for an address in no instance's window: it does not "reach the engine, and the platform decides
  what they do" (R32). Safe. -/
  | outsideWindow
  /-- Raised by `Platform` for an access by one host context to an instance another context holds (R96): "refuse a
  program in which two contexts use one instance within one digest" (U16). Safe. -/
  | instanceInUse
  /-- Raised by `Platform` for a host context that gives up its instance between the `clr` of a digest and the last read
  of H (R96, log entry 11). Safe. -/
  | digestUnderWay
  /-- Raised by `Platform` for a reset event in a host context's program: reset is the platform's event and no host
  access (R112). Safe. -/
  | notAnAccess
deriving DecidableEq, Repr

/-- The state right after reset (R29, R112). The model's own fields are chosen (log entry 14). -/
def State.reset : State where
  h := initialHash
  v := Vector.replicate 8 0
  w := Vector.replicate 64 0
  m := Vector.replicate 16 0
  rc := 0
  pend := none
  ill := false
  ovr := false
  accerr := false
  inReset := false
  delay := 0
  issues := 0
  draws := 0
  script := []
  observed := []

end Sys2Proof.Machine
end

