-- ==== Sys2Proof/Machine/Flags.lean ====
section
/-! DEFINITION. BUSY and the STATUS register: what it reads and what a write to it does (10_state.md R22, R25;
20_memory.md R33, R34). The engine has no arithmetic flags (R28). -/

namespace Sys2Proof.Machine

/-- `BUSY = 1` exactly when `PEND != none` (R25). -/
def State.busy (s : State) : Bool := s.pend.isSome

/-- A flag as a word of value 0 or 1. -/
def bitWord (b : Bool) : Word := (BitVec.ofBool b).setWidth 32

/-- What STATUS reads (R22, R33). -/
def statusWord (s : State) : Word :=
  (s.rc.setWidth 32 <<< 8) ||| (bitWord s.accerr <<< 3) ||| (bitWord s.ovr <<< 2) ||| (bitWord s.ill <<< 1)
    ||| bitWord s.busy

/-- A write of `x` to STATUS: each W1C bit whose data bit is 1 is cleared (R22). -/
def clearFlags (x : Word) (s : State) : State :=
  { s with
    ill := s.ill && !x.getLsbD 1
    ovr := s.ovr && !x.getLsbD 2
    accerr := s.accerr && !x.getLsbD 3 }

end Sys2Proof.Machine
end

