-- ==== Sys2Proof/Decode.lean ====
section
/-! DEFINITION. Decoding a command word and encoding a command (30_encoding.md R48, R50 to R52). Decoding is total: every
word is a command or is rejected by name. Whether a decoded command may be issued in a state is R51's and R53's
business, in Machine/Operands.lean (`guardOk`). -/

namespace Sys2Proof

/-- Why a word is no command (R52). -/
inductive DecodeError where
  /-- `RSV != 0`: some bit of [31:8] is set. -/
  | reservedBits
  /-- `OP` in 0x08..0xFF. -/
  | reservedOpcode
deriving DecidableEq, Repr

/-- The field OP, bits 7:0 (R48). -/
def opField (v : Word) : BitVec 8 := v.extractLsb' 0 8

/-- The field RSV, bits 31:8 (R48). -/
def rsvField (v : Word) : BitVec 24 := v.extractLsb' 8 24

/-- The opcode map (R50). -/
def decodeOpcode (op : BitVec 8) : Except DecodeError Instr :=
  match op.toNat with
  | 0x00 => .ok .nop
  | 0x01 => .ok .init
  | 0x02 => .ok .expand
  | 0x03 => .ok .loadv
  | 0x04 => .ok .round
  | 0x05 => .ok .compress
  | 0x06 => .ok .accum
  | 0x07 => .ok .block
  | _ => .error .reservedOpcode

/-- The command a word stands for (R51, R52): the whole word is compared, so `RSV` must be 0. -/
def decode (v : Word) : Except DecodeError Instr :=
  if rsvField v = 0 then decodeOpcode (opField v) else .error .reservedBits

/-- The word of a command (R50). -/
def encode : Instr → Word
  | .nop => 0x00000000
  | .init => 0x00000001
  | .expand => 0x00000002
  | .loadv => 0x00000003
  | .round => 0x00000004
  | .compress => 0x00000005
  | .accum => 0x00000006
  | .block => 0x00000007

/-- The decoder on an opcode-table word: the low `nbits` bits of `w`, the bits above being 0. A command is one 32-bit
word (R48, R55), written whole to CMD, so no byte order enters (R37, log entry 15); a longer one does not exist. -/
def decodeTableWord (nbits w : Nat) : Option Instr :=
  if nbits ≤ 32 then (decode (BitVec.ofNat 32 (w % 2 ^ nbits))).toOption else none

end Sys2Proof
end

