-- ==== Sys2Proof/Machine/Operands.lean ====
section
/-! DEFINITION. Operand forms and word functions shared by the families: rotation and shift (00_scope.md R7, R8), the
big-endian conversions (R11), the classes of offsets (20_memory.md R32), and the guards of R51 and R53. Commands have no
operand fields (R49); what a host access names is its offset. -/

namespace Sys2Proof.Machine

/-- `ROTR(x, n)` for `1 <= n <= 31` (R7). -/
def rotr (x : Word) (n : Nat) : Word := (x >>> n) ||| (x <<< (32 - n))

/-- `x >> n`, the logical right shift (R8). -/
def shr (x : Word) (n : Nat) : Word := x >>> n

/-- `BE32(b0, b1, b2, b3)` (R11). -/
def be32 (b0 b1 b2 b3 : Byte) : Word :=
  BitVec.ofNat 32 (b0.toNat * 2 ^ 24 + b1.toNat * 2 ^ 16 + b2.toNat * 2 ^ 8 + b3.toNat)

/-- `BYTES32(w)` (R11). -/
def bytes32 (x : Word) : List Byte :=
  [x.extractLsb' 24 8, x.extractLsb' 16 8, x.extractLsb' 8 8, x.extractLsb' 0 8]

/-- `Class(off)` (R32), from the register map of R31. -/
def classify (off : Offset) : RegClass :=
  let n := off.toNat
  if n % 4 ≠ 0 then .misaligned
  else if n = 0x000 then .id
  else if n = 0x004 then .cmd
  else if n = 0x008 then .status
  else if _h : 0x040 ≤ n ∧ n < 0x080 then .m ⟨(n - 0x040) / 4, by omega⟩
  else if _h : 0x080 ≤ n ∧ n < 0x0A0 then .h ⟨(n - 0x080) / 4, by omega⟩
  else if _h : 0x0A0 ≤ n ∧ n < 0x0C0 then .v ⟨(n - 0x0A0) / 4, by omega⟩
  else if _h : 0x100 ≤ n ∧ n < 0x200 then .w ⟨(n - 0x100) / 4, by omega⟩
  else if _h : 0x200 ≤ n ∧ n < 0x300 then .k ⟨(n - 0x200) / 4, by omega⟩
  else .rsvd

/-- The part of `Legal` that looks at the round counter (R51, R53): ROUND needs RC < 64, ACCUM needs RC = 64. -/
def guardOk (i : Instr) (rc : BitVec 7) : Bool :=
  match i with
  | .nop => true
  | .init => true
  | .expand => true
  | .loadv => true
  | .round => rc.toNat < 64
  | .compress => true
  | .accum => rc.toNat = 64
  | .block => true

/-- The command a CMD write of `x` issues with the round counter at `rc`, if `Legal(x)` holds (R51). -/
def legalCommand (x : Word) (rc : BitVec 7) : Option Instr :=
  match decode x with
  | .ok i => if guardOk i rc then some i else none
  | .error _ => none

/-- `Legal(v)` (R51). -/
def legal (x : Word) (rc : BitVec 7) : Bool := (legalCommand x rc).isSome

end Sys2Proof.Machine
end

