-- ==== Sys2Proof/Machine/Ops.lean ====
section
/-! DEFINITION. The named operations on the state: raising a flag (the engine's whole reaction to an error), register reads
and writes (20_memory.md R33, R34), issue and completion of a command (R34, R57), reset (R112, R113), the host's moves
(R56), and whose move is next (R42, R122). -/

namespace Sys2Proof.Machine

/-- `raise F()` (00_scope.md R12, 60_exceptions.md R99): the flag is set and nothing else happens. There is no trap, so
nothing is saved and nothing is returned from (R105); a raised flag goes away only by `clearFlags` or reset (R102). -/
def raise (f : Flag) (s : State) : State :=
  { s with
    ill := s.ill || (f == .ill)
    ovr := s.ovr || (f == .ovr)
    accerr := s.accerr || (f == .accerr) }

/-- Accepting a command at the CMD write: `PEND <- op; BUSY <- 1` (R34). The latency of this issue is drawn here
(R122). -/
def issue (i : Instr) (s : State) : State :=
  { s with pend := some i, delay := Config.latency i s.issues, issues := s.issues + 1 }

/-- The end of the completion step: `PEND <- none; BUSY <- 0` (R57). -/
def retire (s : State) : State := { s with pend := none, delay := 0 }

/-- The engine's state made that of R29, everything of the model's own but `delay` kept (R112, R113). -/
def engineReset (s : State) : State :=
  { State.reset with
    inReset := s.inReset
    issues := s.issues
    draws := s.draws
    script := s.script
    observed := s.observed }

/-- `M[i] <- x`. -/
def setM (i : Fin 16) (x : Word) (s : State) : State := { s with m := s.m.set i.val x i.isLt }

/-- The value `RegRead` returns for an offset of class `c` (R33). While BUSY is 1 the data registers read as an
unspecified word (R41). -/
def readValue (c : RegClass) (s : State) : Word :=
  match c with
  | .misaligned => 0
  | .id => idValue
  | .cmd => 0
  | .status => statusWord s
  | .m i => if s.busy then Config.draw s.draws else s.m[i]
  | .h j => if s.busy then Config.draw s.draws else s.h[j]
  | .v j => if s.busy then Config.draw s.draws else s.v[j]
  | .w i => if s.busy then Config.draw s.draws else s.w[i]
  | .k i => roundConstants[i]
  | .rsvd => 0

/-- Whether a class is one of the data registers whose reads BUSY makes unspecified (R41). -/
def RegClass.isData : RegClass → Bool
  | .misaligned => false
  | .id => false
  | .cmd => false
  | .status => false
  | .m _ => true
  | .h _ => true
  | .v _ => true
  | .w _ => true
  | .k _ => false
  | .rsvd => false

/-- What a read leaves: every piece of the machine's state (R38). Only the model's count of unspecified values moves, so
that the next such read is free of this one (R41). -/
def afterRead (c : RegClass) (s : State) : State :=
  if c.isData && s.busy then { s with draws := s.draws + 1 } else s

/-- A CMD write with BUSY = 0 (R34, R51): the command is issued, or ILL is raised. -/
def writeCommand (x : Word) (s : State) : State :=
  match legalCommand x s.rc with
  | some i => issue i s
  | none => raise .ill s

/-- `RegWrite` at an offset of class `c` (R34), with the checks in the order R101 gives. -/
def regWrite (c : RegClass) (x : Word) (s : State) : State :=
  match c with
  | .misaligned => raise .accerr s
  | .id => raise .accerr s
  | .cmd => if s.busy then raise .ovr s else writeCommand x s
  | .status => clearFlags x s
  | .m i => if s.busy then raise .ovr s else setM i x s
  | .h _ => raise .accerr s
  | .v _ => raise .accerr s
  | .w _ => raise .accerr s
  | .k _ => raise .accerr s
  | .rsvd => raise .accerr s

/-- One host access takes place: it leaves the script, and one fewer is to fall before the completion (R122). -/
def advance (s : State) : State := { s with script := s.script.tail, delay := s.delay - 1 }

/-- One poll of a `wait` loop that goes on: the loop stays in the script. -/
def elapse (s : State) : State := { s with delay := s.delay - 1 }

/-- The host has read `x` by `rd`. -/
def observe (x : Word) (s : State) : State := { s with observed := s.observed ++ [x] }

/-- Why an access is outside the interface: reset is asserted (R113), or it is not 32 bits wide (R35). -/
def accessRefusal (width : Width) (s : State) : Option Refusal :=
  if s.inReset then some .accessDuringReset
  else if width = .w32 then none
  else some .accessWidth

/-- `rd OFF` (R33, R56). -/
def hostRead (width : Width) (off : Offset) (s : State) : Host.Outcome State Fault Refusal :=
  match accessRefusal width s with
  | some r => .refused r
  | none => .next (observe (readValue (classify off) s) (afterRead (classify off) (advance s)))

/-- `wr OFF, VAL` (R34, R56). -/
def hostWrite (width : Width) (off : Offset) (x : Word) (s : State) : Host.Outcome State Fault Refusal :=
  match accessRefusal width s with
  | some r => .refused r
  | none => .next (regWrite (classify off) x (advance s))

/-- `expect OFF, VAL` (R56). -/
def hostExpect (off : Offset) (x : Word) (s : State) : Host.Outcome State Fault Refusal :=
  match accessRefusal .w32 s with
  | some r => .refused r
  | none =>
    if readValue (classify off) s = x then .next (afterRead (classify off) (advance s))
    else .fault .expectationFailed

/-- One poll of `wait` (R56): a read of STATUS, and the loop ends when bit 0 of the value is 0. -/
def hostPoll (s : State) : Host.Outcome State Fault Refusal :=
  match accessRefusal .w32 s with
  | some r => .refused r
  | none =>
    if (readValue (classify 0x008) s).getLsbD 0 then .next (elapse s) else .next (advance s)

/-- Reset is asserted (R113): the pending command is discarded with all its results. -/
def resetAssert (s : State) : State := engineReset { advance s with inReset := true }

/-- Reset is released (R112): the state is that of R29. A release of a line that is not asserted is no event. -/
def resetRelease (s : State) : State :=
  if s.inReset then engineReset { advance s with inReset := false } else advance s

/-- The host's move, or the reset line's. -/
def hostMove (op : HostOp) (s : State) : Host.Outcome State Fault Refusal :=
  match op with
  | .rd width off => hostRead width off s
  | .wr width off x => hostWrite width off x s
  | .expect off x => hostExpect off x s
  | .wait => hostPoll s
  | .assertReset => .next (resetAssert s)
  | .releaseReset => .next (resetRelease s)

/-- Whose move is next. Reset goes before everything (R113), and while it is asserted the engine does not step. A
pending command completes when no further host access is to fall before its completion, or none is left (R122, R124).
Otherwise the host moves; when it has nothing left and nothing is pending, the machine is idle (R111). -/
def nextMove (s : State) : Move :=
  match s.script with
  | [] =>
    match s.pend with
    | some i => if s.inReset then .idle else .engine i
    | none => .idle
  | op :: _ =>
    match s.pend with
    | some i => if op.isReset || s.inReset || s.delay != 0 then .host op else .engine i
    | none => .host op

/-- The completion step (R57) from what the command's body answers: all its writes are applied, then PEND and BUSY are
cleared. -/
def completion (o : Host.Outcome State Fault Refusal) : Host.Outcome State Fault Refusal :=
  match o with
  | .next t => .next (retire t)
  | .fault f => .fault f
  | .refused r => .refused r

/-- The state in which the engine's next step runs the command of a word, as if its CMD write had just been accepted:
PEND holds the command, no host access falls before the completion, and no reset event goes before it. A word that is no
command cannot be pending: there the host's next move is its CMD write (R51, R52). -/
def placeCommand (decoded : Option Instr) (x : Word) (s : State) : State :=
  match decoded with
  | some i =>
    { s with pend := some i, delay := 0, inReset := false, script := s.script.dropWhile HostOp.isReset }
  | none => { s with pend := none, inReset := false, script := .wr .w32 0x004 x :: s.script }

end Sys2Proof.Machine
end

