-- ==== Sys2Proof/Machine/Compression.lean ====
section
/-! DEFINITION. The compression engine (42_compression.md): its functions and the commands LOADV, ROUND and COMPRESS. -/

namespace Sys2Proof.Machine

/-- `Sigma0` (R67). -/
def bigSigma0 (x : Word) : Word := rotr x 2 ^^^ rotr x 13 ^^^ rotr x 22

/-- `Sigma1` (R68). -/
def bigSigma1 (x : Word) : Word := rotr x 6 ^^^ rotr x 11 ^^^ rotr x 25

/-- `Ch` (R69). -/
def ch (e f g : Word) : Word := (e &&& f) ^^^ (~~~e &&& g)

/-- `Maj` (R70). -/
def maj (a b c : Word) : Word := (a &&& b) ^^^ (a &&& c) ^^^ (b &&& c)

/-- `T1` of R66. -/
def roundT1 (v : Words8) (kw ww : Word) : Word := v[7] + bigSigma1 v[4] + ch v[4] v[5] v[6] + kw + ww

/-- `T2` of R66. -/
def roundT2 (v : Words8) : Word := bigSigma0 v[0] + maj v[0] v[1] v[2]

/-- `Round(v, k, w)` (R66): every word of the result is taken from before the round. -/
def roundFn (v : Words8) (kw ww : Word) : Words8 :=
  #v[roundT1 v kw ww + roundT2 v, v[0], v[1], v[2], v[3] + roundT1 v kw ww, v[4], v[5], v[6]]

/-- `Compress(h, w)` (R71): rounds 0 to 63 in order, from `v = h`. -/
def compress (h : Words8) (w : Words64) : Words8 :=
  (List.finRange 64).foldl (fun v i => roundFn v roundConstants[i] w[i]) h

/-- LOADV (R72): `V <- H; RC <- 0`. -/
def execLoadv (s : State) : Host.Outcome State Fault Refusal :=
  .next { s with v := s.h, rc := 0 }

/-- ROUND (R73): round RC on V. With RC at 64 there is no round left and the command is rejected: ILL (R53, log
entry 4). -/
def execRound (s : State) : Host.Outcome State Fault Refusal :=
  if h : s.rc.toNat < 64 then
    .next { s with v := roundFn s.v roundConstants[s.rc.toNat] s.w[s.rc.toNat], rc := s.rc + 1 }
  else .next (raise .ill s)

/-- COMPRESS (R74): `V <- Compress(H, W); RC <- 64`. -/
def execCompress (s : State) : Host.Outcome State Fault Refusal :=
  .next { s with v := compress s.h s.w, rc := 64 }

end Sys2Proof.Machine
end

