-- ==== Sys2Proof/Machine/Schedule.lean ====
section
/-! DEFINITION. The message schedule expander (41_schedule.md): its functions and the command EXPAND. -/

namespace Sys2Proof.Machine

/-- `sigma0` (R62). -/
def sigma0 (x : Word) : Word := rotr x 7 ^^^ rotr x 18 ^^^ shr x 3

/-- `sigma1` (R63). -/
def sigma1 (x : Word) : Word := rotr x 17 ^^^ rotr x 19 ^^^ shr x 10

/-- One turn of R61's loop, for the index `n + 16`: the index minus 15, 16, 2 and 7 are `n + 1`, `n`, `n + 14` and
`n + 9`. -/
def expandStep (w : Words64) (n : Fin 48) : Words64 :=
  w.set (n.val + 16) (sigma0 w[n.val + 1] + w[n.val] + sigma1 w[n.val + 14] + w[n.val + 9])

/-- `Expand(m)` (R61): the 16 words of the block, then the loop over 16..63. -/
def expand (m : Words16) : Words64 :=
  (List.finRange 48).foldl expandStep (m ++ Vector.replicate 48 (0 : Word))

/-- EXPAND (R64): `W <- Expand(M)`. -/
def execExpand (s : State) : Host.Outcome State Fault Refusal :=
  .next { s with w := expand s.m }

end Sys2Proof.Machine
end

