-- ==== Sys2Proof/Machine/Accumulate.lean ====
section
/-! DEFINITION. The hash state accumulator (43_accumulate.md): its function and the commands ACCUM and BLOCK. -/

namespace Sys2Proof.Machine

/-- `Accumulate(h, v)` (R77): word by word, each sum modulo 2^32. -/
def accumulate (h v : Words8) : Words8 := h.zipWith (· + ·) v

/-- ACCUM (R78): `H <- Accumulate(H, V); RC <- 0`. With RC other than 64 the rounds are not done and the command is
rejected: ILL (R53, log entry 4). -/
def execAccum (s : State) : Host.Outcome State Fault Refusal :=
  if s.rc.toNat = 64 then .next { s with h := accumulate s.h s.v, rc := 0 }
  else .next (raise .ill s)

/-- BLOCK (R79): each sub-step reads the results of the one before (R60), and the fold takes H from before the
command. -/
def execBlock (s : State) : Host.Outcome State Fault Refusal :=
  let w := expand s.m
  let v := compress s.h w
  .next { s with w := w, v := v, h := accumulate s.h v, rc := 0 }

end Sys2Proof.Machine
end

