-- ==== Sys2Proof/Machine/Control.lean ====
section
/-! DEFINITION. The control commands NOP and INIT (40_control.md). -/

namespace Sys2Proof.Machine

/-- NOP (R58): no state changes. -/
def execNop (s : State) : Host.Outcome State Fault Refusal := .next s

/-- INIT (R59): `H <- IV`, V, W and M all zero, `RC <- 0`; the flags keep their values. -/
def execInit (s : State) : Host.Outcome State Fault Refusal :=
  .next
    { s with
      h := initialHash
      v := Vector.replicate 8 0
      w := Vector.replicate 64 0
      m := Vector.replicate 16 0
      rc := 0 }

end Sys2Proof.Machine
end

