-- ==== Sys2Proof/Machine/Dispatch.lean ====
section
/-! DEFINITION. `Exec(op)` (40_control.md R60): one arm per command. -/

namespace Sys2Proof.Machine

def exec (i : Instr) (s : State) : Host.Outcome State Fault Refusal :=
  match i with
  | .nop => Sys2Proof.Machine.execNop s
  | .init => Sys2Proof.Machine.execInit s
  | .expand => Sys2Proof.Machine.execExpand s
  | .loadv => Sys2Proof.Machine.execLoadv s
  | .round => Sys2Proof.Machine.execRound s
  | .compress => Sys2Proof.Machine.execCompress s
  | .accum => Sys2Proof.Machine.execAccum s
  | .block => Sys2Proof.Machine.execBlock s

end Sys2Proof.Machine
end

