-- ==== Sys2Proof/Machine/Step.lean ====
section
/-! DEFINITION. One step of the machine: the engine's completion step, the host's next access, a reset event, or nothing
(20_memory.md R42, 40_control.md R57). -/

namespace Sys2Proof.Machine

/-- The step. Everything it calls but `exec` is in Machine/Ops.lean. -/
def step (s : State) : Host.Outcome State Fault Refusal :=
  match nextMove s with
  | .engine i => completion (exec i s)
  | .host op => hostMove op s
  | .idle => .next s

/-- `s` with a command placed where the engine takes its next command from: PEND (log entry 1). -/
def State.withFetchWord (s : State) (nbits w : Nat) : State :=
  placeCommand (decodeTableWord nbits w) (BitVec.ofNat 32 w) s

end Sys2Proof.Machine
end

