-- ==== Sys2Proof/Machine/HostProgram.lean ====
section
/-! DEFINITION. The host's side (45_host_digest.md): the pseudo-instructions of 30_encoding.md R56, padding, blocks and
words, the digest as a function of the message, the digest procedure as a host program, and the output forms. These are
the host's duties, not engine behaviour (00_scope.md R3). A message is a list of bytes (R4: whole bytes only). -/

namespace Sys2Proof.Machine

/-- What a host signals in place of a digest. How it signals is its own business (R85, R88). -/
inductive HostSignal where
  /-- The bit length does not fit the 64-bit field (R85). -/
  | inputTooLarge
  /-- STATUS[3:1] was not 0 after the last command (R88, R104). -/
  | engineError
deriving DecidableEq, Repr

/-- Offset of CMD (R31). -/
def offCmd : Offset := 0x004

/-- Offset of STATUS (R31). -/
def offStatus : Offset := 0x008

/-- Offset of M[i] (R31). -/
def offM (i : Fin 16) : Offset := BitVec.ofNat 10 (0x040 + 4 * i.val)

/-- Offset of H[j] (R31). -/
def offH (j : Fin 8) : Offset := BitVec.ofNat 10 (0x080 + 4 * j.val)

/-- `rd OFF` (R56). -/
def opRd (off : Offset) : HostOp := .rd .w32 off

/-- `wr OFF, VAL` (R56). -/
def opWr (off : Offset) (x : Word) : HostOp := .wr .w32 off x

/-- `cmd NOP`, ..., `cmd BLOCK` (R56). -/
def opCmd (i : Instr) : HostOp := opWr offCmd (encode i)

/-- `ldm i, VAL` (R56). -/
def opLdm (i : Fin 16) (x : Word) : HostOp := opWr (offM i) x

/-- `ldblk w0, ..., w15` (R56). -/
def opLdblk (b : Words16) : List HostOp := (List.finRange 16).map fun i => opLdm i b[i]

/-- `clr`: clear ILL, OVR, ACCERR (R56). -/
def opClr : HostOp := opWr offStatus 0x0000000E

/-- `rdh`: read H0..H7 (R56). -/
def opRdh : List HostOp := (List.finRange 8).map fun j => opRd (offH j)

/-- The number `k` of zero bytes of the padding of an `L`-byte message, `(55 - L) mod 64` (R82, R83). -/
def padZeros (len : Nat) : Nat := (119 - len % 64) % 64

/-- `BE64(x)`: the 8 bytes of `x`, most significant first (R82). -/
def be64 (x : Nat) : List Byte :=
  [BitVec.ofNat 8 (x >>> 56), BitVec.ofNat 8 (x >>> 48), BitVec.ofNat 8 (x >>> 40), BitVec.ofNat 8 (x >>> 32),
   BitVec.ofNat 8 (x >>> 24), BitVec.ofNat 8 (x >>> 16), BitVec.ofNat 8 (x >>> 8), BitVec.ofNat 8 x]

/-- `m || 0x80 || 0x00^k || BE64(8 * L)` (R82). -/
def padBytes (msg : List Byte) : List Byte :=
  msg ++ [0x80] ++ List.replicate (padZeros msg.length) 0x00 ++ be64 (8 * msg.length)

/-- `Pad(m)`, defined only for `L < 2^61` (R82, R85). -/
def pad (msg : List Byte) : Except HostSignal (List Byte) :=
  if msg.length < 2 ^ 61 then .ok (padBytes msg) else .error .inputTooLarge

/-- The number of blocks of padded bytes (R86, R88). -/
def blockCount (padded : List Byte) : Nat := padded.length / 64

/-- The sixteen words of block `b` of padded bytes (R86, R87). -/
def blockWords (padded : List Byte) (b : Nat) : Words16 :=
  Vector.ofFn fun i =>
    be32 (padded.getD (64 * b + 4 * i.val) 0) (padded.getD (64 * b + 4 * i.val + 1) 0)
      (padded.getD (64 * b + 4 * i.val + 2) 0) (padded.getD (64 * b + 4 * i.val + 3) 0)

/-- What one block does to the hash state: `Accumulate(H, Compress(H, Expand(M)))` (R81). -/
def hashBlock (h : Words8) (b : Words16) : Words8 := accumulate h (compress h (expand b))

/-- The hash state after the blocks, in index order from IV (R81, R91). -/
def hashBlocks (blocks : List Words16) : Words8 := blocks.foldl hashBlock initialHash

/-- The blocks of padded bytes in index order (R86). -/
def blocksOf (padded : List Byte) : List Words16 := (List.range (blockCount padded)).map (blockWords padded)

/-- `BYTES32(H[0]) || ... || BYTES32(H[7])` (R92). -/
def digestBytes (h : Words8) : List Byte := h.toList.flatMap bytes32

/-- `digest(bytes) -> bytes[32]` (R88, R92), or the signal of R85. -/
def digest (msg : List Byte) : Except HostSignal (List Byte) :=
  match pad msg with
  | .ok padded => .ok (digestBytes (hashBlocks (blocksOf padded)))
  | .error e => .error e

/-- How the host has a block processed (R88): by BLOCK, or by `EXPAND; COMPRESS; ACCUM` in its place. -/
inductive BlockForm where
  | block
  | stages
deriving DecidableEq, Repr

/-- The commands of a block, each with its `wait` (R88). -/
def blockCommands (how : BlockForm) : List HostOp :=
  match how with
  | .block => [opCmd .block, .wait]
  | .stages => [opCmd .expand, .wait, opCmd .compress, .wait, opCmd .accum, .wait]

/-- One turn of R88's block loop. -/
def blockProgram (how : BlockForm) (b : Words16) : List HostOp := opLdblk b ++ blockCommands how

/-- The block loop of R88 over padded bytes; block `b` is processed as `how b` says. -/
def blockLoop (how : Nat → BlockForm) (padded : List Byte) : List HostOp :=
  (List.range (blockCount padded)).flatMap fun b => blockProgram (how b) (blockWords padded b)

/-- The accesses of `Digest(m)` (R88) up to `s := rd 0x008`, or the signal of R85. -/
def digestProgram (how : Nat → BlockForm) (msg : List Byte) : Except HostSignal (List HostOp) :=
  match pad msg with
  | .ok padded => .ok ([.wait, opClr, opCmd .init, .wait] ++ blockLoop how padded ++ [opRd offStatus])
  | .error e => .error e

/-- What the host does next in R88 when it has read `status`: the eight reads of H, or, where STATUS[3:1] is not 0, the
signal EngineError with no further access (log entry 16). -/
def digestContinue (status : Word) : Except HostSignal (List HostOp) :=
  if status.extractLsb' 1 3 = 0 then .ok opRdh else .error .engineError

/-- The hexadecimal digit of a nibble, lowercase (R93). -/
def hexDigit (x : BitVec 4) : Char :=
  ['0', '1', '2', '3', '4', '5', '6', '7', '8', '9', 'a', 'b', 'c', 'd', 'e', 'f'].getD x.toNat '0'

/-- Two lowercase digits a byte, high nibble first (R93). -/
def hexChars (bytes : List Byte) : List Char :=
  bytes.flatMap fun x => [hexDigit (x.extractLsb' 4 4), hexDigit (x.extractLsb' 0 4)]

/-- `hexdigest` of a byte message (R93). -/
def hexdigest (msg : List Byte) : Except HostSignal String :=
  match digest msg with
  | .ok bytes => .ok (String.ofList (hexChars bytes))
  | .error e => .error e

/-- The bytes of a text: its UTF-8 encoding (R94). -/
def textBytes (text : String) : List Byte :=
  text.toList.flatMap fun c => (String.utf8EncodeChar c).map UInt8.toBitVec

/-- `hexdigest` of a text (R94). -/
def hexdigestText (text : String) : Except HostSignal String := hexdigest (textBytes text)

end Sys2Proof.Machine
end

