-- ==== Sys2Proof/Machine/Platform.lean ====
section
/-! DEFINITION. A platform with several engine instances (60_exceptions.md R109): each has its own window at its own base
address (20_memory.md R30), its own state and its own engine agent, and at most one host context that holds it, from the
`clr` of a digest to its last read of H at least (45_host_digest.md R96). `BASE` and `N_INST` (00_scope.md R5) are data
here: a base per instance, and how many there are. The form of the platform is the model's (log entry 11). -/

namespace Sys2Proof.Machine

/-- How far the context that holds an instance is with a digest (R88, R96). -/
inductive HoldPhase where
  /-- The instance is claimed and no digest has begun. -/
  | held
  /-- A digest is under way: its `clr` has been issued. -/
  | digest
  /-- Its read of STATUS has been issued, and nothing after it. -/
  | checked
  /-- It reads H. -/
  | reading
  /-- Its last read of H, that of H[7], has been issued. -/
  | readOut
deriving DecidableEq, Repr

/-- Who holds an instance, and how far its digest is. -/
structure Hold where
  ctx : Nat
  phase : HoldPhase
deriving DecidableEq, Repr

/-- One instance on its platform. -/
structure Slot where
  /-- `BASE` of this instance's window (R5, R30). -/
  base : Nat
  /-- The host context that has exclusive use of the instance (R96), if one has. -/
  hold : Option Hold
  /-- The instance (R13). -/
  engine : State
deriving DecidableEq, Repr

/-- The instances of a platform; `N_INST` is their number (R109). -/
structure Platform where
  slots : List Slot
deriving DecidableEq, Repr

/-- A host access before it is routed: it names an address, not an offset. -/
inductive BusAccess where
  | read (width : Width)
  | write (width : Width) (x : Word)
deriving DecidableEq, Repr

/-- Size of a window in bytes (R5, R30). -/
def windowSize : Nat := 0x400

/-- Whether an address is in the slot's window (R30). -/
def Slot.contains (sl : Slot) (addr : Nat) : Bool := sl.base ≤ addr && addr < sl.base + windowSize

/-- `off = addr - BASE` (R30). -/
def Slot.offset (sl : Slot) (addr : Nat) : Offset := BitVec.ofNat 10 (addr - sl.base)

/-- Two windows share no address. -/
def Slot.apart (a b : Slot) : Bool := a.base + windowSize ≤ b.base || b.base + windowSize ≤ a.base

/-- A platform has at least one instance (R109), and each has its own window. -/
def Platform.wf (p : Platform) : Bool := !p.slots.isEmpty && decide (p.slots.Pairwise fun a b => a.apart b = true)

/-- `N_INST` (R5, R109). -/
def Platform.nInst (p : Platform) : Nat := p.slots.length

/-- The instance, counted from `k`, and the offset an address names (R30, R32). -/
def routeFrom (k : Nat) (slots : List Slot) (addr : Nat) : Option (Nat × Offset) :=
  match slots with
  | [] => none
  | sl :: rest => if sl.contains addr then some (k, sl.offset addr) else routeFrom (k + 1) rest addr

/-- The instance and the offset an address names, if it is in a window (R30, R32). -/
def Platform.route (p : Platform) (addr : Nat) : Option (Nat × Offset) := routeFrom 0 p.slots addr

/-- The access as the instance sees it. -/
def BusAccess.at (a : BusAccess) (off : Offset) : HostOp :=
  match a with
  | .read width => .rd width off
  | .write width x => .wr width off x

/-- How far a digest is after one more access of its context. A `clr` begins a digest, or begins it anew. Its read of
STATUS (an `expect` that passes has found the flags it wanted) and then the reads of H end it; any other access in
between goes on with it, and so does a write after the last read (R88, R96). -/
def HoldPhase.after (ph : HoldPhase) (op : HostOp) : HoldPhase :=
  match ph, op with
  | .held, .wr width off x => if HostOp.wr width off x = opClr then .digest else .held
  | .held, _ => .held
  | .readOut, .wr _ _ _ => .digest
  | .readOut, _ => .readOut
  | .digest, .rd _ off => if off = offStatus then .checked else .digest
  | .digest, .expect off _ => if off = offStatus then .reading else .digest
  | .digest, _ => .digest
  | .checked, .rd _ off => readsH off
  | .checked, .expect off _ => if off = offStatus then .reading else readsH off
  | .checked, _ => .digest
  | .reading, .rd _ off => readsH off
  | .reading, .expect off _ => if off = offStatus then .reading else readsH off
  | .reading, _ => .digest
where
  /-- After the check of STATUS: a read of H[7] is the last, one of another H goes on reading, one of STATUS checks
  again. -/
  readsH (off : Offset) : HoldPhase :=
    if off = offH 7 then .readOut
    else if off = offStatus then .checked
    else
      match classify off with
      | .h _ => .reading
      | _ => .digest

/-- Who holds the instance after one more access of context `ctx`: exclusive use begins with the `clr` of a digest at
the latest (R96). -/
def holdAfter (ctx : Nat) (op : HostOp) (hold : Option Hold) : Option Hold :=
  match hold with
  | none => if op = opClr then some { ctx := ctx, phase := .digest } else none
  | some hd => some { hd with phase := hd.phase.after op }

/-- Whether the instance takes an access of context `ctx`: nobody holds it, or `ctx` does (R96). -/
def Slot.admits (sl : Slot) (ctx : Nat) : Bool :=
  match sl.hold with
  | none => true
  | some hd => hd.ctx = ctx

/-- The instance with one more entry at the end of its script. -/
def Slot.enqueue (sl : Slot) (op : HostOp) : Slot :=
  { sl with engine := { sl.engine with script := sl.engine.script ++ [op] } }

/-- The instance with one more access of context `ctx` to come. -/
def Slot.accept (sl : Slot) (ctx : Nat) (op : HostOp) : Slot :=
  { sl.enqueue op with hold := holdAfter ctx op sl.hold }

/-- The platform with one slot made another. -/
def Platform.setSlot (p : Platform) (k : Nat) (sl : Slot) : Platform := { slots := p.slots.set k sl }

/-- Host context `ctx` issues one access in the form of 30_encoding.md R56 to instance `k`. One to an instance that
another context holds is refused (R96, U16). -/
def Platform.submitOp (p : Platform) (ctx k : Nat) (op : HostOp) : Host.Outcome Platform Fault Refusal :=
  match p.slots[k]? with
  | none => .refused .outsideWindow
  | some sl =>
    if op.isReset then .refused .notAnAccess
    else if sl.admits ctx then .next (p.setSlot k (sl.accept ctx op))
    else .refused .instanceInUse

/-- Host context `ctx` issues the accesses of a host program to instance `k`. -/
def Platform.submitAll (p : Platform) (ctx k : Nat) : List HostOp → Host.Outcome Platform Fault Refusal
  | [] => .next p
  | op :: rest =>
    match p.submitOp ctx k op with
    | .next q => q.submitAll ctx k rest
    | .fault f => .fault f
    | .refused r => .refused r

/-- Host context `ctx` issues an access to an address. One outside every window does not reach an engine (R32). -/
def Platform.submit (p : Platform) (ctx : Nat) (addr : Nat) (a : BusAccess) : Host.Outcome Platform Fault Refusal :=
  match p.route addr with
  | none => .refused .outsideWindow
  | some (k, off) => p.submitOp ctx k (a.at off)

/-- The platform asserts or releases the reset line of instance `k` (R112), whoever holds the instance. -/
def Platform.driveReset (p : Platform) (k : Nat) (asserted : Bool) : Host.Outcome Platform Fault Refusal :=
  match p.slots[k]? with
  | none => .refused .outsideWindow
  | some sl => .next (p.setSlot k (sl.enqueue (if asserted then .assertReset else .releaseReset)))

/-- Context `ctx` takes exclusive use of instance `k` (R96); how it gets it is the platform's business. -/
def Platform.claim (p : Platform) (ctx k : Nat) : Host.Outcome Platform Fault Refusal :=
  match p.slots[k]? with
  | none => .refused .outsideWindow
  | some sl =>
    match sl.hold with
    | none => .next (p.setSlot k { sl with hold := some { ctx := ctx, phase := .held } })
    | some hd => if hd.ctx = ctx then .next p else .refused .instanceInUse

/-- The host of a digest has stopped with EngineError (R88): every access it issued has been made, the last of them its
read of STATUS, and STATUS[3:1] was not 0. -/
def Slot.engineErrorSeen (sl : Slot) : Bool :=
  sl.engine.script.isEmpty && sl.engine.observed.getLast?.any (fun x => x.extractLsb' 1 3 != 0)

/-- Whether the holder's digest, if it began one, has ended: it never began, its last read of H has been issued, or it
has stopped with EngineError (R88, R96). -/
def Slot.mayRelease (sl : Slot) (ph : HoldPhase) : Bool :=
  match ph with
  | .held => true
  | .digest => false
  | .checked => sl.engineErrorSeen
  | .reading => false
  | .readOut => true

/-- Context `ctx` gives instance `k` up, which it may not within a digest (R96). -/
def Platform.release (p : Platform) (ctx k : Nat) : Host.Outcome Platform Fault Refusal :=
  match p.slots[k]? with
  | none => .refused .outsideWindow
  | some sl =>
    match sl.hold with
    | none => .next p
    | some hd =>
      if hd.ctx = ctx then
        if sl.mayRelease hd.phase then .next (p.setSlot k { sl with hold := none }) else .refused .digestUnderWay
      else .refused .instanceInUse

/-- One step of instance `k` (R109: each instance has its own engine agent). -/
def Platform.stepAt (p : Platform) (k : Nat) : Host.Outcome Platform Fault Refusal :=
  match p.slots[k]? with
  | none => .refused .outsideWindow
  | some sl =>
    match step sl.engine with
    | .next t => .next (p.setSlot k { sl with engine := t })
    | .fault f => .fault f
    | .refused r => .refused r

end Sys2Proof.Machine
end

