-- ==== Sys2Proof/Safety.lean ====
section
/-! DEFINITION. What counts as a legal state, an ended run and a valid digest, and whose move it is, in the terms the
statements use. -/

namespace Sys2Proof.Machine

/-- The error bits STATUS[3:1] all read 0 (60_exceptions.md R104). -/
abbrev State.flagsClear (s : State) : Prop := s.ill = false ∧ s.ovr = false ∧ s.accerr = false

/-- The engine's part of the state is that of R29. -/
abbrev State.engineAtReset (s : State) : Prop :=
  s.h = initialHash ∧ s.v = Vector.replicate 8 0 ∧ s.w = Vector.replicate 64 0 ∧ s.m = Vector.replicate 16 0 ∧
  s.rc = 0 ∧ s.pend = none ∧ s.flagsClear

/-- The invariant of the machine: RC is in 0..64 (R20), a pending command passed its guard (R51, R53), no latency is left
over when nothing is pending, and while reset is asserted the engine is as reset leaves it (R112, R113). -/
abbrev State.Inv (s : State) : Prop :=
  s.rc.toNat ≤ 64 ∧ s.pend.all (fun i => guardOk i s.rc) = true ∧ (s.pend = none → s.delay = 0) ∧
  (s.inReset = true → s.engineAtReset)

/-- A run has ended: the host has issued its last access and BUSY = 0 (70_reset_and_hazards.md R125). -/
abbrev State.ended (s : State) : Prop := s.script = [] ∧ s.pend = none

/-- The next step is an event of the reset line (R113): an assertion, or a release of an asserted line. -/
abbrev State.resetEvent (s : State) : Prop :=
  s.script.head? = some .assertReset ∨ (s.script.head? = some .releaseReset ∧ s.inReset = true)

/-- The host makes the next move, with `op`, and `rest` follows: reset is not asserted, and either nothing is pending or
at least one more host access falls before the completion (R42, R122). -/
abbrev State.hostTurn (s : State) (op : HostOp) (rest : List HostOp) : Prop :=
  s.script = op :: rest ∧ s.inReset = false ∧ (s.pend = none ∨ s.delay ≠ 0)

/-- The engine makes the next move, completing `i`: reset is neither asserted nor about to be, and no host access falls
before the completion, or none is left (R57, R122). -/
abbrev State.engineTurn (s : State) (i : Instr) : Prop :=
  s.pend = some i ∧ s.inReset = false ∧
  (s.script = [] ∨ (s.delay = 0 ∧ ∀ op, s.script.head? = some op → op.isReset = false))

/-- The commands of a list one after another, each completed before the next: what a host sees that waits after every
command (45_host_digest.md R88). -/
def execAll : List Instr → State → Host.Outcome State Fault Refusal
  | [], s => .next s
  | i :: rest, s =>
    match exec i s with
    | .next t => execAll rest t
    | .fault f => .fault f
    | .refused r => .refused r

/-- Message blocks one after another (43_accumulate.md R81): before each block, the commands of a list; then M holds
the block and BLOCK runs. -/
def execBlocks : List (List Instr × Words16) → State → Host.Outcome State Fault Refusal
  | [], s => .next s
  | (before, b) :: rest, s =>
    match execAll before s with
    | .next t =>
      match exec .block { t with m := b } with
      | .next u => execBlocks rest u
      | .fault f => .fault f
      | .refused r => .refused r
    | .fault f => .fault f
    | .refused r => .refused r

end Sys2Proof.Machine
end

