-- ==== Sys2Proof/WellFormed.lean ====
section
/-! DEFINITION. Well-formedness of commands, of command words and of host accesses. A command has no fields (R49), so each
is well formed as it stands; a command WORD is well formed when it obeys the format and names an opcode (R48, R50, R52);
a host access is well formed when it is inside the interface (R35). -/

namespace Sys2Proof

/-- Commands have no register, immediate or mode fields (R49): nothing of one can be ill formed. -/
def Instr.wellFormed : Instr → Bool
  | .nop => true
  | .init => true
  | .expand => true
  | .loadv => true
  | .round => true
  | .compress => true
  | .accum => true
  | .block => true

/-- `RSV = 0` (R48). -/
def reservedBitsClear (v : Word) : Bool := rsvField v = 0

/-- `OP < 0x08` (R50, R52). -/
def opcodeAssigned (v : Word) : Bool := (opField v).toNat < 0x08

/-- A word some command is encoded by: the part of `Legal` (R51) that does not look at the state. -/
def commandWordWellFormed (v : Word) : Bool := reservedBitsClear v && opcodeAssigned v

/-- A host access inside the interface: 32 bits wide (R35). -/
def HostOp.wellFormed : HostOp → Bool
  | .rd width _ => width = .w32
  | .wr width _ _ => width = .w32
  | .expect _ _ => true
  | .wait => true
  | .assertReset => true
  | .releaseReset => true

/-- A host program all of whose accesses are inside the interface. -/
def scriptWellFormed (p : List HostOp) : Bool := p.all HostOp.wellFormed

end Sys2Proof
end

