-- ==== Sys2Proof/Certificates/Slice0/Obligations.lean ====
section
/-! DEFINITION. The statements for the provers, from the numbered rules of spec/. OBLIGATIONS.json says of each which rule
or section it formalises. -/

open Sys2Proof Sys2Proof.Machine

/-! ### Encoding and issue -/

/-- R50: the eight words of the opcode map, the whole word compared (mask 0xFFFFFFFF), and every other word is no
command. -/
def Obligations.DecodeAgreesWithOpcodeMap : Prop :=
  (encode .nop = 0x00000000 ∧ encode .init = 0x00000001 ∧ encode .expand = 0x00000002 ∧
    encode .loadv = 0x00000003 ∧ encode .round = 0x00000004 ∧ encode .compress = 0x00000005 ∧
    encode .accum = 0x00000006 ∧ encode .block = 0x00000007) ∧
  (∀ (x : Word) (i : Instr), decode x = .ok i ↔ x = encode i) ∧
  (∀ x : Word, (∃ e, decode x = .error e) ↔ 0x08 ≤ x.toNat)

/-- Words written out from 30_encoding.md's format and from 95_test_vectors.md section 2.6. -/
def Obligations.SpecCommandWordsDecode : Prop :=
  decode 0b00000000000000000000000000000001 = .ok .init ∧
  decode 0b00000000000000000000000000000010 = .ok .expand ∧
  decode 0b00000000000000000000000000000100 = .ok .round ∧
  decode 0b00000000000000000000000000000111 = .ok .block ∧
  decode 0x00000100 = .error .reservedBits ∧ decode 0x80000007 = .error .reservedBits ∧
  decode 0x00000008 = .error .reservedOpcode ∧ decode 0x000000FF = .error .reservedOpcode ∧
  decodeTableWord 32 0x00000006 = some .accum

/-- R57 and the model's fetch: when the engine moves, the step is `exec` of the pending command with PEND (and so BUSY)
cleared after it; and a decoded command word placed by `withFetchWord`, the model's own way in (log entry 1), is what the
very next step runs. When the engine moves is the model's form of R122 (log entry 2). -/
def Obligations.StepRunsThePendingCommand : Prop :=
  (∀ (s t : State) (i : Instr), s.engineTurn i → exec i s = .next t →
    step s = .next { t with pend := none, delay := 0 }) ∧
  (∀ (s t : State) (nbits w : Nat) (i : Instr), decodeTableWord nbits w = some i → i.wellFormed = true →
    exec i (s.withFetchWord nbits w) = .next t →
    (s.withFetchWord nbits w).pend = some i ∧
    step (s.withFetchWord nbits w) = .next { t with pend := none, delay := 0 })

/-- R51, R34: a CMD write while idle issues the command of its word exactly when `Legal` holds of the word and RC;
otherwise it raises ILL and does nothing else. `script`, `delay` and `issues` are the model's own (log entries 1, 2). -/
def Obligations.CommandWriteIssuesExactlyLegalWords : Prop :=
  ∀ (s : State) (x : Word) (rest : List HostOp), s.hostTurn (.wr .w32 0x004 x) rest → s.pend = none →
    s.rc.toNat ≤ 64 →
    (∀ i : Instr, x = encode i → ¬(i = .round ∧ s.rc.toNat = 64) → ¬(i = .accum ∧ s.rc.toNat ≠ 64) →
      step s = .next { s with
        script := rest, pend := some i, delay := Config.latency i s.issues, issues := s.issues + 1 }) ∧
    ((x.extractLsb' 8 24 ≠ 0 ∨ 0x08 ≤ (x.extractLsb' 0 8).toNat ∨ (x = 0x04 ∧ s.rc.toNat = 64) ∨
        (x = 0x06 ∧ s.rc.toNat ≠ 64)) →
      step s = .next { s with script := rest, delay := s.delay - 1, ill := true })

/-! ### The functions -/

/-- R7: the formula of ROTR is the right rotation, bit by bit. -/
def Obligations.RotrIsTheRightRotation : Prop :=
  ∀ (x : Word) (n i : Nat), 1 ≤ n → n ≤ 31 → i < 32 → (rotr x n).getLsbD i = x.getLsbD ((i + n) % 32)

/-- R62, R63, bit by bit, with the rules' examples: the shifted term brings in zeros. -/
def Obligations.ScheduleSigmasBitwise : Prop :=
  (∀ (x : Word) (i : Nat), i < 32 →
    (sigma0 x).getLsbD i =
      ((x.getLsbD ((i + 7) % 32) ^^ x.getLsbD ((i + 18) % 32)) ^^ (decide (i + 3 < 32) && x.getLsbD (i + 3))) ∧
    (sigma1 x).getLsbD i =
      ((x.getLsbD ((i + 17) % 32) ^^ x.getLsbD ((i + 19) % 32)) ^^ (decide (i + 10 < 32) && x.getLsbD (i + 10)))) ∧
  sigma0 0x80000000 = 0x11002000 ∧ sigma1 0x00000018 = 0x000F0000

/-- R67, R68, bit by bit, with the rules' examples. -/
def Obligations.CompressionSigmasBitwise : Prop :=
  (∀ (x : Word) (i : Nat), i < 32 →
    (bigSigma0 x).getLsbD i =
      ((x.getLsbD ((i + 2) % 32) ^^ x.getLsbD ((i + 13) % 32)) ^^ x.getLsbD ((i + 22) % 32)) ∧
    (bigSigma1 x).getLsbD i =
      ((x.getLsbD ((i + 6) % 32) ^^ x.getLsbD ((i + 11) % 32)) ^^ x.getLsbD ((i + 25) % 32))) ∧
  bigSigma0 0x6A09E667 = 0xCE20B47E ∧ bigSigma1 0x510E527F = 0x3587272B

/-- R69, R70: Ch takes the bit of f where e is 1 and of g where e is 0; Maj is the bitwise majority. With the formulas
and the examples of the rules. -/
def Obligations.ChoiceAndMajority : Prop :=
  (∀ (e f g : Word), ch e f g = (e &&& f) ^^^ (~~~e &&& g) ∧
    ∀ i, i < 32 → (ch e f g).getLsbD i = if e.getLsbD i then f.getLsbD i else g.getLsbD i) ∧
  (∀ (a b c : Word), maj a b c = (a &&& b) ^^^ (a &&& c) ^^^ (b &&& c) ∧
    ∀ i, i < 32 → (maj a b c).getLsbD i =
      decide (2 ≤ (a.getLsbD i).toNat + (b.getLsbD i).toNat + (c.getLsbD i).toNat)) ∧
  ch 0x510E527F 0x9B05688C 0x1F83D9AB = 0x1F85C98C ∧ maj 0x6A09E667 0xBB67AE85 0x3C6EF372 = 0x3A6FE667

/-- R61: Expand(m) is the one schedule that begins with m and obeys the recurrence. -/
def Obligations.ExpandIsTheScheduleRecurrence : Prop :=
  ∀ (m : Words16) (w : Words64), w = expand m ↔
    (∀ i (h : i < 16), w[i] = m[i]) ∧
    (∀ i (h : 16 ≤ i ∧ i < 64), w[i] = sigma0 w[i - 15] + w[i - 16] + sigma1 w[i - 2] + w[i - 7])

/-- R66: one round, with T1 and T2 written out, and every right-hand side from before the round. -/
def Obligations.RoundFollowsItsEquations : Prop :=
  ∀ (v : Words8) (kw ww t1 t2 : Word),
    t1.toNat = (v[7].toNat + (bigSigma1 v[4]).toNat + (ch v[4] v[5] v[6]).toNat + kw.toNat + ww.toNat) % 2 ^ 32 →
    t2.toNat = ((bigSigma0 v[0]).toNat + (maj v[0] v[1] v[2]).toNat) % 2 ^ 32 →
    (roundFn v kw ww)[0].toNat = (t1.toNat + t2.toNat) % 2 ^ 32 ∧ (roundFn v kw ww)[1] = v[0] ∧
    (roundFn v kw ww)[2] = v[1] ∧ (roundFn v kw ww)[3] = v[2] ∧
    (roundFn v kw ww)[4].toNat = (v[3].toNat + t1.toNat) % 2 ^ 32 ∧ (roundFn v kw ww)[5] = v[4] ∧
    (roundFn v kw ww)[6] = v[5] ∧ (roundFn v kw ww)[7] = v[6]

/-- R76: only V'[0] and V'[4] are new words, their difference is T2 - d, every sum wraps, and a round is a bijection
on V. -/
def Obligations.RoundShiftsTheChainAndIsBijective : Prop :=
  ∀ (kw ww : Word),
    (∀ v : Words8,
      (∀ i (h : 1 ≤ i ∧ i ≤ 3), (roundFn v kw ww)[i] = v[i - 1]) ∧
      (∀ i (h : 5 ≤ i ∧ i ≤ 7), (roundFn v kw ww)[i] = v[i - 1]) ∧
      (roundFn v kw ww)[0] - (roundFn v kw ww)[4] = roundT2 v - v[3] ∧
      (roundFn v kw ww)[0] = (roundFn v kw ww)[4] - v[3] + roundT2 v ∧
      (roundFn v kw ww)[0].toNat = ((roundT1 v kw ww).toNat + (roundT2 v).toNat) % 2 ^ 32 ∧
      (roundFn v kw ww)[4].toNat = (v[3].toNat + (roundT1 v kw ww).toNat) % 2 ^ 32) ∧
    Function.Bijective (fun v : Words8 => roundFn v kw ww)

/-- R77: the fold is word by word, each word wraps on its own. -/
def Obligations.AccumulateAddsWordByWord : Prop :=
  ∀ (h v : Words8) (j : Nat) (hj : j < 8),
    (accumulate h v)[j].toNat = (h[j].toNat + v[j].toNat) % 2 ^ 32

/-! ### The commands -/

/-- R60, R97, R98: the body of every command is total: it answers a next state whatever the data. That it does so for
ROUND and ACCUM in the states their guards exclude is the model's choice (log entry 4). -/
def Obligations.EveryCommandAnswersNext : Prop :=
  ∀ (i : Instr) (s : State), ∃ t, exec i s = .next t

/-- R58: NOP leaves every register as it was; at the step only PEND and with it BUSY are cleared. -/
def Obligations.NopChangesNothing : Prop :=
  (∀ s : State, exec .nop s = .next s) ∧
  (∀ s : State, s.engineTurn .nop → step s = .next { s with pend := none, delay := 0 })

/-- R59: INIT loads IV and clears V, W, M and RC; everything else stays, the flags among it; and a second INIT changes
nothing more. -/
def Obligations.InitLoadsIvAndClears : Prop :=
  ∀ s : State, ∃ t, exec .init s = .next t ∧
    t.h = #v[0x6A09E667, 0xBB67AE85, 0x3C6EF372, 0xA54FF53A, 0x510E527F, 0x9B05688C, 0x1F83D9AB, 0x5BE0CD19] ∧
    (∀ j (h : j < 8), t.v[j] = 0) ∧ (∀ i (h : i < 64), t.w[i] = 0) ∧ (∀ i (h : i < 16), t.m[i] = 0) ∧ t.rc = 0 ∧
    t = { s with h := t.h, v := t.v, w := t.w, m := t.m, rc := t.rc } ∧
    exec .init t = .next t

/-- R64: EXPAND makes W the schedule of M (the recurrence of R61 with W itself), and changes nothing else. From M all
zero W is all zero. -/
def Obligations.ExpandBuildsTheScheduleOfM : Prop :=
  ∀ s : State, ∃ t, exec .expand s = .next t ∧
    (∀ i (h : i < 16), t.w[i] = s.m[i]) ∧
    (∀ i (h : 16 ≤ i ∧ i < 64), t.w[i] = sigma0 t.w[i - 15] + t.w[i - 16] + sigma1 t.w[i - 2] + t.w[i - 7]) ∧
    t = { s with w := t.w } ∧
    ((∀ i (h : i < 16), s.m[i] = 0) → ∀ i (h : i < 64), t.w[i] = 0)

/-- R65: the first 16 words are m, the expansion is not linear over xor, EXPAND's W depends on M alone, and it is the
source's schedule for the block whose words are M. -/
def Obligations.ExpandLaws : Prop :=
  (∀ (m : Words16) (i : Nat) (h : i < 16), (expand m)[i] = m[i]) ∧
  (∃ m m' : Words16, expand (m.zipWith (· ^^^ ·) m') ≠ (expand m).zipWith (· ^^^ ·) (expand m')) ∧
  (∀ s s' t t' : State, s.m = s'.m → exec .expand s = .next t → exec .expand s' = .next t' → t.w = t'.w) ∧
  (∀ (s t : State), exec .expand s = .next t → (∀ i (h : i < 16), t.w[i] = s.m[i]) ∧
    ∀ i (h : 16 ≤ i ∧ i < 64), t.w[i] = sigma0 t.w[i - 15] + t.w[i - 16] + sigma1 t.w[i - 2] + t.w[i - 7])

/-- R72: LOADV copies H to V and clears RC, and changes nothing else. -/
def Obligations.LoadvCopiesTheHashState : Prop :=
  ∀ s : State, exec .loadv s = .next { s with v := s.h, rc := 0 }

/-- R73: with RC < 64, ROUND completes: it performs round RC with K[RC] and W[RC], adds 1 to RC, and changes nothing
else. With RC = 64, a state in which the spec has no ROUND complete, the model only raises ILL (its choice, log
entry 4). -/
def Obligations.RoundPerformsRoundRc : Prop :=
  (∀ (s : State) (n : Nat) (hn : n < 64), s.rc.toNat = n →
    ∃ t, exec .round s = .next t ∧ t.v = roundFn s.v roundConstants[n] s.w[n] ∧ t.rc.toNat = n + 1 ∧
      t = { s with v := t.v, rc := t.rc }) ∧
  (∀ s : State, s.rc.toNat = 64 → exec .round s = .next { s with ill := true })

/-- R71, R74: COMPRESS leaves in V what 64 rounds in index order make of H, sets RC to 64, and changes nothing else. -/
def Obligations.CompressRunsSixtyFourRounds : Prop :=
  ∀ (s : State) (vs : Nat → Words8), vs 0 = s.h →
    (∀ n (h : n < 64), vs (n + 1) = roundFn (vs n) roundConstants[n] s.w[n]) →
    exec .compress s = .next { s with v := vs 64, rc := 64 }

/-- R78: with RC = 64, ACCUM adds V into H word by word modulo 2^32, clears RC and changes nothing else. With RC other
than 64, a state in which the spec has no ACCUM complete, the model only raises ILL (its choice, log entry 4): so a second
ACCUM adds nothing. -/
def Obligations.AccumFoldsVIntoH : Prop :=
  (∀ s : State, s.rc.toNat = 64 → ∃ t, exec .accum s = .next t ∧
    (∀ j (h : j < 8), t.h[j].toNat = (s.h[j].toNat + s.v[j].toNat) % 2 ^ 32) ∧
    t.rc = 0 ∧ t = { s with h := t.h, rc := t.rc } ∧ exec .accum t = .next { t with ill := true }) ∧
  (∀ s : State, s.rc.toNat ≠ 64 → exec .accum s = .next { s with ill := true })

/-- R79: BLOCK expands M into W, runs the 64 rounds from H on that W into V, adds V to the H from before, clears RC and
changes nothing else. -/
def Obligations.BlockProcessesOneBlock : Prop :=
  ∀ s : State, ∃ t, exec .block s = .next t ∧
    (∀ i (h : i < 16), t.w[i] = s.m[i]) ∧
    (∀ i (h : 16 ≤ i ∧ i < 64), t.w[i] = sigma0 t.w[i - 15] + t.w[i - 16] + sigma1 t.w[i - 2] + t.w[i - 7]) ∧
    (∀ vs : Nat → Words8, vs 0 = s.h →
      (∀ n (h : n < 64), vs (n + 1) = roundFn (vs n) roundConstants[n] t.w[n]) → t.v = vs 64) ∧
    (∀ j (h : j < 8), t.h[j] = s.h[j] + t.v[j]) ∧ t.rc = 0 ∧
    t = { s with w := t.w, v := t.v, h := t.h, rc := t.rc }

/-- R14, R15, R18, R19, R22, R102: the frame of every command by what it may write. M: INIT. H: INIT, ACCUM, BLOCK. V:
all but NOP, EXPAND and ACCUM. W: INIT, EXPAND, BLOCK. No command writes OVR, ACCERR, PEND or anything of the model's
own, and one that passes its guard does not write ILL. -/
def Obligations.CommandsWriteOnlyTheirRegisters : Prop :=
  ∀ (i : Instr) (s t : State), exec i s = .next t →
    (i ≠ .init → t.m = s.m) ∧
    (i ≠ .init → i ≠ .accum → i ≠ .block → t.h = s.h) ∧
    (i = .nop ∨ i = .expand ∨ i = .accum → t.v = s.v) ∧
    (i ≠ .init → i ≠ .expand → i ≠ .block → t.w = s.w) ∧
    (i = .nop ∨ i = .expand → t.rc = s.rc) ∧
    t.ovr = s.ovr ∧ t.accerr = s.accerr ∧ (guardOk i s.rc = true → t.ill = s.ill) ∧
    t.pend = s.pend ∧ t.inReset = s.inReset ∧ t.delay = s.delay ∧ t.issues = s.issues ∧ t.draws = s.draws ∧
    t.script = s.script ∧ t.observed = s.observed

/-- R20: RC is the index of the next round that ROUND performs (so ROUND completes whenever RC < 64); who sets RC and to
what; where the host reads it; and that 65..127 never occur. That RC is 0 already at the assertion of reset is the model's
choice (log entry 8). -/
def Obligations.RoundCounterIsSetByItsCommands : Prop :=
  (∀ (s : State) (h : s.rc.toNat < 64), exec .round s = .next { s with
    v := roundFn s.v roundConstants[s.rc.toNat] s.w[s.rc.toNat], rc := s.rc + 1 }) ∧
  (∀ (i : Instr) (s t : State), exec i s = .next t → guardOk i s.rc = true →
    (i = .loadv ∨ i = .init ∨ i = .accum ∨ i = .block → t.rc.toNat = 0) ∧
    (i = .round → t.rc.toNat = s.rc.toNat + 1) ∧ (i = .compress → t.rc.toNat = 64) ∧
    (i = .nop ∨ i = .expand → t.rc = s.rc)) ∧
  State.reset.rc = 0 ∧
  (∀ s t : State, s.script.head? = some .assertReset → step s = .next t → t.rc = 0) ∧
  (∀ s : State, (readValue (classify 0x008) s).extractLsb' 8 7 = s.rc) ∧
  (∀ s t : State, s.rc.toNat ≤ 64 → step s = .next t → t.rc.toNat ≤ 64)

/-- R75: LOADV and 64 ROUNDs leave the state of one COMPRESS, and ROUND number n is accepted, RC being n. -/
def Obligations.LoadvAndSixtyFourRoundsEqualCompress : Prop :=
  ∀ s : State,
    (∃ t, execAll (.loadv :: List.replicate 64 .round) s = .next t ∧ exec .compress s = .next t) ∧
    (∀ n, n < 64 → ∃ r, execAll (.loadv :: List.replicate n .round) s = .next r ∧ r.rc.toNat = n ∧
      guardOk .round r.rc = true)

/-- R80: EXPAND, COMPRESS, ACCUM leave the state of one BLOCK, and the ACCUM is legal. -/
def Obligations.BlockEqualsExpandCompressAccum : Prop :=
  ∀ s : State,
    (∃ t, execAll [.expand, .compress, .accum] s = .next t ∧ exec .block s = .next t) ∧
    (∃ r, execAll [.expand, .compress] s = .next r ∧ r.rc.toNat = 64 ∧ guardOk .accum r.rc = true)

/-- R81: after INIT and n BLOCKs with M_1, ..., M_n loaded before each, and any commands that do not write H in between,
H is H_n, where H_0 = IV and H_k = Accumulate(H_(k-1), Compress(H_(k-1), Expand(M_k))). -/
def Obligations.BlocksChainTheHashState : Prop :=
  ∀ (s : State) (bs : List (List Instr × Words16)) (hs : Nat → Words8),
    (∀ p ∈ bs, ∀ i ∈ p.1, i ≠ .init ∧ i ≠ .accum ∧ i ≠ .block) →
    hs 0 = initialHash →
    (∀ n (h : n < bs.length), hs (n + 1) = accumulate (hs n) (compress (hs n) (expand bs[n].2))) →
    ∃ t u, exec .init s = .next t ∧ execBlocks bs t = .next u ∧ u.h = hs bs.length

/-- R26, R95: nothing of before an INIT reaches what any commands after it leave in H, V, W, M and RC. -/
def Obligations.InitForgetsTheHistory : Prop :=
  ∀ (s s' t t' : State) (is : List Instr), execAll (.init :: is) s = .next t → execAll (.init :: is) s' = .next t' →
    t.h = t'.h ∧ t.v = t'.v ∧ t.w = t'.w ∧ t.m = t'.m ∧ t.rc = t'.rc

/-! ### The register interface -/

/-- R31, R32: the class of every offset, both ways. -/
def Obligations.OffsetClassesFollowTheRegisterMap : Prop :=
  ∀ off : Offset,
    (classify off = .misaligned ↔ off.toNat % 4 ≠ 0) ∧
    (classify off = .id ↔ off.toNat = 0x000) ∧ (classify off = .cmd ↔ off.toNat = 0x004) ∧
    (classify off = .status ↔ off.toNat = 0x008) ∧
    (∀ i, classify off = .m i ↔ off.toNat = 0x040 + 4 * i.val) ∧
    (∀ j, classify off = .h j ↔ off.toNat = 0x080 + 4 * j.val) ∧
    (∀ j, classify off = .v j ↔ off.toNat = 0x0A0 + 4 * j.val) ∧
    (∀ i, classify off = .w i ↔ off.toNat = 0x100 + 4 * i.val) ∧
    (∀ i, classify off = .k i ↔ off.toNat = 0x200 + 4 * i.val) ∧
    (classify off = .rsvd ↔ off.toNat % 4 = 0 ∧
      ((0x00C ≤ off.toNat ∧ off.toNat ≤ 0x03C) ∨ (0x0C0 ≤ off.toNat ∧ off.toNat ≤ 0x0FC) ∨ 0x300 ≤ off.toNat))

/-- R33: what a host read observes while the engine is idle, by offset; and R17: the 64 round constants. `script`, `delay`
and `observed` are the model's own (log entries 1, 2, 7). -/
def Obligations.IdleReadObservesTheRegister : Prop :=
  roundConstants.toList =
    [0x428A2F98, 0x71374491, 0xB5C0FBCF, 0xE9B5DBA5, 0x3956C25B, 0x59F111F1, 0x923F82A4, 0xAB1C5ED5] ++
    [0xD807AA98, 0x12835B01, 0x243185BE, 0x550C7DC3, 0x72BE5D74, 0x80DEB1FE, 0x9BDC06A7, 0xC19BF174] ++
    [0xE49B69C1, 0xEFBE4786, 0x0FC19DC6, 0x240CA1CC, 0x2DE92C6F, 0x4A7484AA, 0x5CB0A9DC, 0x76F988DA] ++
    [0x983E5152, 0xA831C66D, 0xB00327C8, 0xBF597FC7, 0xC6E00BF3, 0xD5A79147, 0x06CA6351, 0x14292967] ++
    [0x27B70A85, 0x2E1B2138, 0x4D2C6DFC, 0x53380D13, 0x650A7354, 0x766A0ABB, 0x81C2C92E, 0x92722C85] ++
    [0xA2BFE8A1, 0xA81A664B, 0xC24B8B70, 0xC76C51A3, 0xD192E819, 0xD6990624, 0xF40E3585, 0x106AA070] ++
    [0x19A4C116, 0x1E376C08, 0x2748774C, 0x34B0BCB5, 0x391C0CB3, 0x4ED8AA4A, 0x5B9CCA4F, 0x682E6FF3] ++
    [0x748F82EE, 0x78A5636F, 0x84C87814, 0x8CC70208, 0x90BEFFFA, 0xA4506CEB, 0xBEF9A3F7, 0xC67178F2] ∧
  ∀ (s : State) (off : Offset) (rest : List HostOp), s.hostTurn (.rd .w32 off) rest → s.pend = none →
    ∃ x, step s = .next { s with script := rest, delay := s.delay - 1, observed := s.observed ++ [x] } ∧
      (off.toNat % 4 ≠ 0 → x = 0) ∧ (off.toNat = 0x000 → x = 0x53323536) ∧ (off.toNat = 0x004 → x = 0) ∧
      (off.toNat = 0x008 → x.toNat =
        s.rc.toNat * 256 + s.accerr.toNat * 8 + s.ovr.toNat * 4 + s.ill.toNat * 2) ∧
      (∀ i : Fin 16, off.toNat = 0x040 + 4 * i.val → x = s.m[i]) ∧
      (∀ j : Fin 8, off.toNat = 0x080 + 4 * j.val → x = s.h[j]) ∧
      (∀ j : Fin 8, off.toNat = 0x0A0 + 4 * j.val → x = s.v[j]) ∧
      (∀ i : Fin 64, off.toNat = 0x100 + 4 * i.val → x = s.w[i]) ∧
      (∀ i : Fin 64, off.toNat = 0x200 + 4 * i.val → x = roundConstants[i]) ∧
      (off.toNat % 4 = 0 →
        ((0x00C ≤ off.toNat ∧ off.toNat ≤ 0x03C) ∨ (0x0C0 ≤ off.toNat ∧ off.toNat ≤ 0x0FC) ∨ 0x300 ≤ off.toNat) →
        x = 0)

/-- R41: while BUSY is 1 a read of M, H, V or W observes a fresh unspecified word, the model's next draw (a free value,
log entry 3), and K, ID, STATUS, CMD and reserved offsets read as BUSY does not matter to them (STATUS shows it in bit 0).
`script`, `delay`, `draws` and `observed` are the model's own (log entries 1, 2, 3, 7). -/
def Obligations.BusyReadOfDataIsUnspecified : Prop :=
  ∀ (s : State) (off : Offset) (rest : List HostOp) (i : Instr), s.hostTurn (.rd .w32 off) rest → s.pend = some i →
    ((off.toNat % 4 = 0 ∧ ((0x040 ≤ off.toNat ∧ off.toNat < 0x0C0) ∨ (0x100 ≤ off.toNat ∧ off.toNat < 0x200))) →
      step s = .next { s with
        script := rest, delay := s.delay - 1, draws := s.draws + 1,
        observed := s.observed ++ [Config.draw s.draws] }) ∧
    (¬(off.toNat % 4 = 0 ∧ ((0x040 ≤ off.toNat ∧ off.toNat < 0x0C0) ∨ (0x100 ≤ off.toNat ∧ off.toNat < 0x200))) →
      step s = .next { s with
        script := rest, delay := s.delay - 1,
        observed := s.observed ++
          [readValue (classify off) { s with pend := none } ||| (if off = 0x008 then 1 else 0)] })

/-- R38: no read changes any piece of the machine's state, whatever its offset and whether BUSY is 0 or 1. -/
def Obligations.ReadsChangeNoState : Prop :=
  ∀ (s t : State) (op : HostOp) (rest : List HostOp), s.hostTurn op rest →
    ((∃ width off, op = .rd width off) ∨ (∃ off x, op = .expect off x) ∨ op = .wait) → step s = .next t →
    t.h = s.h ∧ t.v = s.v ∧ t.w = s.w ∧ t.m = s.m ∧ t.rc = s.rc ∧ t.pend = s.pend ∧ t.ill = s.ill ∧
    t.ovr = s.ovr ∧ t.accerr = s.accerr ∧ t.inReset = s.inReset

/-- R34, R36: a write to a misaligned, read-only or reserved offset is dropped and raises ACCERR and nothing else,
whether BUSY is 0 or 1. -/
def Obligations.WriteToBadTargetRaisesAccerrOnly : Prop :=
  ∀ (s : State) (off : Offset) (x : Word) (rest : List HostOp), s.hostTurn (.wr .w32 off x) rest →
    (off.toNat % 4 ≠ 0 ∨ off.toNat = 0x000 ∨ (0x00C ≤ off.toNat ∧ off.toNat ≤ 0x03C) ∨ 0x080 ≤ off.toNat) →
    step s = .next { s with script := rest, delay := s.delay - 1, accerr := true }

/-- R34, R116, R117, R101: while BUSY is 1 a write to CMD, whatever its word, or to M[i] is dropped and raises OVR and
nothing else. -/
def Obligations.BusyWriteToCmdOrMRaisesOvrOnly : Prop :=
  ∀ (s : State) (off : Offset) (x : Word) (rest : List HostOp) (i : Instr),
    s.hostTurn (.wr .w32 off x) rest → s.pend = some i →
    (off.toNat = 0x004 ∨ ∃ j : Fin 16, off.toNat = 0x040 + 4 * j.val) →
    step s = .next { s with script := rest, delay := s.delay - 1, ovr := true }

/-- R34, R19: a write to M[i] while idle stores the word in M[i] and changes nothing else, and writing it again leaves
the same M (R39). -/
def Obligations.IdleWriteToMStoresTheWord : Prop :=
  ∀ (s : State) (off : Offset) (x : Word) (rest : List HostOp) (i : Fin 16), s.hostTurn (.wr .w32 off x) rest →
    s.pend = none → off.toNat = 0x040 + 4 * i.val →
    ∃ m' : Words16, step s = .next { s with script := rest, delay := s.delay - 1, m := m' } ∧
      m'[i] = x ∧ (∀ j : Fin 16, j ≠ i → m'[j] = s.m[j]) ∧ m'.set i.val x i.isLt = m'

/-- R22, R34: a write to STATUS clears each of ILL, OVR and ACCERR whose data bit is 1, leaves the others, raises
nothing and touches neither BUSY nor RC, whether BUSY is 0 or 1. -/
def Obligations.StatusWriteClearsChosenFlags : Prop :=
  ∀ (s : State) (x : Word) (rest : List HostOp), s.hostTurn (.wr .w32 0x008 x) rest →
    ∃ t, step s = .next t ∧
      t = { s with
        script := rest, delay := s.delay - 1, ill := t.ill, ovr := t.ovr, accerr := t.accerr } ∧
      (t.ill = true ↔ s.ill = true ∧ x.getLsbD 1 = false) ∧ (t.ovr = true ↔ s.ovr = true ∧ x.getLsbD 2 = false) ∧
      (t.accerr = true ↔ s.accerr = true ∧ x.getLsbD 3 = false)

/-- R22: the fields of the word STATUS reads, reserved bits 0. -/
def Obligations.StatusWordHasItsFields : Prop :=
  ∀ s : State,
    ((statusWord s).getLsbD 0 = true ↔ s.pend ≠ none) ∧ (statusWord s).getLsbD 1 = s.ill ∧
    (statusWord s).getLsbD 2 = s.ovr ∧ (statusWord s).getLsbD 3 = s.accerr ∧
    (statusWord s).extractLsb' 4 4 = 0 ∧ (statusWord s).extractLsb' 8 7 = s.rc ∧
    (statusWord s).extractLsb' 15 17 = 0

/-- R52: every reserved word written to CMD while idle raises ILL, issues nothing, leaves BUSY at 0 and changes no other
state. -/
def Obligations.ReservedCommandWordRaisesIllOnly : Prop :=
  ∀ (s : State) (x : Word) (rest : List HostOp), s.hostTurn (.wr .w32 0x004 x) rest → s.pend = none →
    (x.extractLsb' 8 24 ≠ 0 ∨ (0x08 ≤ (x.extractLsb' 0 8).toNat ∧ (x.extractLsb' 0 8).toNat ≤ 0xFF)) →
    ∃ t, step s = .next t ∧ t.ill = true ∧ t.busy = false ∧
      t = { s with script := rest, delay := s.delay - 1, ill := true }

/-- R53: ROUND written at RC = 64 and ACCUM written at RC != 64, while idle, raise ILL and have no other effect. -/
def Obligations.GuardedCommandWriteRaisesIllOnly : Prop :=
  ∀ (s : State) (i : Instr) (rest : List HostOp), s.hostTurn (.wr .w32 0x004 (encode i)) rest → s.pend = none →
    ((i = .round ∧ s.rc.toNat = 64) ∨ (i = .accum ∧ s.rc.toNat ≠ 64)) →
    step s = .next { s with script := rest, delay := s.delay - 1, ill := true }

/-- R101: one write raises at most one flag, and one that raises a flag changes nothing else (R34, R99). -/
def Obligations.OneWriteRaisesAtMostOneFlag : Prop :=
  ∀ (s t : State) (off : Offset) (x : Word) (rest : List HostOp), s.hostTurn (.wr .w32 off x) rest →
    step s = .next t →
    (s.ill = false ∧ t.ill = true → t.ovr = s.ovr ∧ t.accerr = s.accerr) ∧
    (s.ovr = false ∧ t.ovr = true → t.ill = s.ill ∧ t.accerr = s.accerr) ∧
    (s.accerr = false ∧ t.accerr = true → t.ill = s.ill ∧ t.ovr = s.ovr) ∧
    ((s.ill = false ∧ t.ill = true) ∨ (s.ovr = false ∧ t.ovr = true) ∨ (s.accerr = false ∧ t.accerr = true) →
      t = { s with script := rest, delay := s.delay - 1, ill := t.ill, ovr := t.ovr, accerr := t.accerr })

/-- R35 (an access of 8, 16 or 64 bits) and R113 (any access while reset is asserted): a model refuses the program. That
an access that is both is refused for the reset is the model's choice (log entry 9). -/
def Obligations.AccessesOutsideTheInterfaceAreRefused : Prop :=
  (∀ (s : State) (width : Width) (off : Offset) (x : Word) (op : HostOp) (rest : List HostOp), width ≠ .w32 →
    (op = .rd width off ∨ op = .wr width off x) → s.hostTurn op rest → step s = .refused .accessWidth) ∧
  (∀ (s : State) (op : HostOp) (rest : List HostOp), s.script = op :: rest → s.inReset = true → op.isReset = false →
    step s = .refused .accessDuringReset)

/-! ### The whole machine -/

/-- R29, R112: the state after reset. -/
def Obligations.ResetStateHasTheSpecValues : Prop :=
  State.reset.h = #v[0x6A09E667, 0xBB67AE85, 0x3C6EF372, 0xA54FF53A, 0x510E527F, 0x9B05688C, 0x1F83D9AB, 0x5BE0CD19] ∧
  (∀ j (h : j < 8), State.reset.v[j] = 0) ∧ (∀ i (h : i < 64), State.reset.w[i] = 0) ∧
  (∀ i (h : i < 16), State.reset.m[i] = 0) ∧ State.reset.rc = 0 ∧ State.reset.busy = false ∧
  State.reset.pend = none ∧ State.reset.ill = false ∧ State.reset.ovr = false ∧ State.reset.accerr = false ∧
  statusWord State.reset = 0

/-- R112, R113: reset, asserted in any state and ahead of a completion that is due, discards the pending command with
all its results and leaves the engine as R29 says; released, it leaves the engine so, ready for accesses. That reset is two
events, and what the registers hold between them, is the model's choice (log entry 8). -/
def Obligations.ResetDiscardsThePendingCommand : Prop :=
  (∀ (s : State) (rest : List HostOp), s.script = .assertReset :: rest →
    ∃ t, step s = .next t ∧ t.engineAtReset ∧ t.inReset = true ∧ t.script = rest ∧ t.observed = s.observed) ∧
  (∀ (s : State) (rest : List HostOp), s.script = .releaseReset :: rest → s.inReset = true →
    ∃ t, step s = .next t ∧ t.engineAtReset ∧ t.inReset = false ∧ t.script = rest ∧ t.observed = s.observed)

/-- The invariant holds after reset. Of the model's own fields it uses that `delay` is 0 and `inReset` false there (log
entry 14). -/
def Obligations.ResetSatisfiesTheInvariant : Prop := State.reset.Inv

/-- Every step keeps the invariant: RC stays in 0..64 (R20), a pending command has passed its guard (R51, R53: what it
was checked against cannot change before it completes), and while reset is asserted the engine is at reset (the model's
choice, log entry 8; `delay` is the model's own, log entry 2). -/
def Obligations.EveryStepKeepsTheInvariant : Prop :=
  ∀ s t : State, s.Inv → step s = .next t → t.Inv

/-- R102: a flag that is set stays set over every step but a STATUS write with its bit or a reset event (log entry 8); no
flag blocks anything: with other flags a write of the host takes the same step, to the same next state but for the flags
and the model's latency (log entry 2); and no command completion sets or clears a flag (R22, R97). -/
def Obligations.FlagsAreStickyAndBlockNothing : Prop :=
  (∀ s t : State, step s = .next t →
    (s.ill = true → t.ill = true ∨ s.resetEvent ∨
      ∃ x rest, s.hostTurn (.wr .w32 0x008 x) rest ∧ x.getLsbD 1 = true) ∧
    (s.ovr = true → t.ovr = true ∨ s.resetEvent ∨
      ∃ x rest, s.hostTurn (.wr .w32 0x008 x) rest ∧ x.getLsbD 2 = true) ∧
    (s.accerr = true → t.accerr = true ∨ s.resetEvent ∨
      ∃ x rest, s.hostTurn (.wr .w32 0x008 x) rest ∧ x.getLsbD 3 = true)) ∧
  (∀ (s t : State) (a b c : Bool) (op : HostOp) (rest : List HostOp), s.script = op :: rest →
    (∃ off x, op = .wr .w32 off x) → step s = .next t →
    ∃ u, step { s with ill := a, ovr := b, accerr := c } = .next u ∧
      t = { u with ill := t.ill, ovr := t.ovr, accerr := t.accerr, delay := t.delay }) ∧
  (∀ (s t : State) (i : Instr), s.Inv → s.engineTurn i → step s = .next t →
    t.ill = s.ill ∧ t.ovr = s.ovr ∧ t.accerr = s.accerr)

/-- R46: while a command is in flight no host access changes its operands, nor RC or PEND. -/
def Obligations.HostCannotDisturbACommandInFlight : Prop :=
  ∀ (s t : State) (i : Instr) (op : HostOp) (rest : List HostOp), s.pend = some i → s.hostTurn op rest →
    op.isReset = false → step s = .next t →
    t.h = s.h ∧ t.v = s.v ∧ t.w = s.w ∧ t.m = s.m ∧ t.rc = s.rc ∧ t.pend = some i

/-- R14, R15, R18, R19: H, V, W and M change only by their writers: the completions named, a host write to M, reset (an
assertion, or a release of an asserted line: log entry 8). -/
def Obligations.OnlyTheirWritersChangeTheRegisters : Prop :=
  ∀ s t : State, step s = .next t → ¬s.resetEvent →
    (t.h ≠ s.h → s.engineTurn .init ∨ s.engineTurn .accum ∨ s.engineTurn .block) ∧
    (t.v ≠ s.v → s.engineTurn .init ∨ s.engineTurn .loadv ∨ s.engineTurn .round ∨ s.engineTurn .compress ∨
      s.engineTurn .block) ∧
    (t.w ≠ s.w → s.engineTurn .init ∨ s.engineTurn .expand ∨ s.engineTurn .block) ∧
    (t.m ≠ s.m → s.engineTurn .init ∨
      ∃ (i : Fin 16) (off : Offset) (x : Word) (rest : List HostOp), s.hostTurn (.wr .w32 off x) rest ∧
        s.pend = none ∧ off.toNat = 0x040 + 4 * i.val)

/-- R111: an idle engine changes no state until the host writes (or reset comes). That a machine with nothing left to do
steps to the same state is the model's choice (log entry 13). -/
def Obligations.IdleEngineHoldsItsState : Prop :=
  (∀ s : State, s.ended → step s = .next s) ∧
  (∀ (s t : State) (op : HostOp) (rest : List HostOp), s.pend = none → s.script = op :: rest → op.isReset = false →
    (∀ width off x, op ≠ .wr width off x) → step s = .next t →
    t.h = s.h ∧ t.v = s.v ∧ t.w = s.w ∧ t.m = s.m ∧ t.rc = s.rc ∧ t.pend = none ∧ t.ill = s.ill ∧ t.ovr = s.ovr ∧
    t.accerr = s.accerr)

/-- R124: a command in flight completes after finitely many steps, unless a reset event or a stop of the host's program
comes first; and every wait loop ends, with BUSY = 0. The bound is the model's latency, a free value (log entry 2; log
entry 13 where no access is left). -/
def Obligations.EveryIssuedCommandCompletes : Prop :=
  (∀ (s : State) (i : Instr), s.pend = some i → s.inReset = false →
    ∃ n, n ≤ s.delay ∧
      ((∃ t : State, core.run n s = .next t ∧ (t.engineTurn i ∨ ∃ op, t.script.head? = some op ∧ op.isReset = true)) ∨
        ∀ t, core.run n s ≠ .next t)) ∧
  (∀ (s : State) (rest : List HostOp), s.script = .wait :: rest → s.inReset = false →
    ∃ (n : Nat) (t : State), n ≤ s.delay + 2 ∧ core.run n s = .next t ∧ t.script = rest ∧ t.pend = none)

/-- R27, R43: after the wait loop for a command, every result of it is in place. That a `wait` records no word is the
model's choice (log entry 7). -/
def Obligations.WaitShowsTheWholeResult : Prop :=
  ∀ (s u : State) (i : Instr) (rest : List HostOp), s.script = .wait :: rest → s.inReset = false →
    s.pend = some i → exec i s = .next u →
    ∃ (n : Nat) (t : State), core.run n s = .next t ∧ t.script = rest ∧ t.pend = none ∧ t.h = u.h ∧ t.v = u.v ∧
      t.w = u.w ∧ t.m = u.m ∧ t.rc = u.rc ∧ t.ill = u.ill ∧ t.ovr = u.ovr ∧ t.accerr = u.accerr ∧ t.observed = s.observed

/-- R42, R122 (95_test_vectors.md P5): both orders of a completion and a write to M that follows the issue with no wait.
If no access falls before the completion of BLOCK, the write is stored; if one does, it is dropped with OVR; and H is
the same in both. The two are the latencies 0 and more of log entry 2. -/
def Obligations.BothOrdersOfCompletionAndWrite : Prop :=
  ∀ (s : State) (x : Word) (i : Fin 16) (off : Offset) (d : Nat), s.pend = some .block → s.inReset = false →
    s.script = [.wr .w32 off x] → off.toNat = 0x040 + 4 * i.val →
    ∃ t u : State, core.run 2 { s with delay := 0 } = .next t ∧ core.run 2 { s with delay := d + 1 } = .next u ∧
      t.pend = none ∧ u.pend = none ∧ t.m[i] = x ∧ t.ovr = s.ovr ∧ u.m = s.m ∧ u.ovr = true ∧ t.h = u.h

/-! ### The platform -/

/-- R109: a step of one instance changes no other instance, and neither its own window nor who holds it. R96: a host
context has exclusive use of an instance from the `clr` of a digest to its last read of H. Once the `clr` of R88's program
is issued, and until its last read of H is, every other context is refused and the context itself may not give the instance
up, unless R88 stopped with EngineError; when all of it is issued the context may. The form of the platform is the model's
(log entry 11). -/
def Obligations.InstancesAreIndependent : Prop :=
  (∀ (p q : Platform) (k : Nat), p.stepAt k = .next q →
    q.nInst = p.nInst ∧ (∀ j, j ≠ k → q.slots[j]? = p.slots[j]?) ∧
    ∃ sl sl', p.slots[k]? = some sl ∧ q.slots[k]? = some sl' ∧ step sl.engine = .next sl'.engine ∧
      sl'.base = sl.base ∧ sl'.hold = sl.hold) ∧
  (∀ (p : Platform) (k ctx : Nat) (sl : Slot) (how : Nat → BlockForm) (msg : List Byte) (prog issued rest : List HostOp),
    p.slots[k]? = some sl → (∀ hd, sl.hold = some hd → hd.ctx = ctx) → digestProgram how msg = .ok prog →
    prog ++ opRdh = issued ++ rest → opClr ∈ issued →
    ∃ q sl' ph, p.submitAll ctx k issued = .next q ∧ q.slots[k]? = some sl' ∧ sl'.hold = some ⟨ctx, ph⟩ ∧
      sl'.engine = { sl.engine with script := sl.engine.script ++ issued } ∧
      (∀ c op, c ≠ ctx → op.isReset = false → q.submitOp c k op = .refused .instanceInUse) ∧
      (∀ c, c ≠ ctx → q.claim c k = .refused .instanceInUse ∧ q.release c k = .refused .instanceInUse) ∧
      (rest ≠ [] → ∀ e : State,
        (e.script = [] → ∀ x, e.observed.getLast? = some x → x.extractLsb' 1 3 = 0) →
        (q.setSlot k { sl' with engine := e }).release ctx k = .refused .digestUnderWay) ∧
      (rest = [] → ∃ r, q.release ctx k = .next r ∧ r.slots[k]? = some { sl' with hold := none }))

/-- R30, R32, R96: an address `BASE + off` with `off < 0x400` reaches that instance at that offset and no other; an
address in no window reaches none; an access to an instance that another context holds is refused; and one by the context
that holds it, or to an instance that nobody holds, is put last in that instance's script, at that offset, and changes no
other instance. The form of the platform is the model's (log entry 11). -/
def Obligations.AddressesReachTheirInstance : Prop :=
  (∀ (p : Platform) (k : Nat) (sl : Slot) (off : Nat), p.wf = true → p.slots[k]? = some sl → off < 0x400 →
    p.route (sl.base + off) = some (k, BitVec.ofNat 10 off)) ∧
  (∀ (p : Platform) (ctx addr : Nat) (a : BusAccess),
    (∀ sl ∈ p.slots, addr < sl.base ∨ sl.base + 0x400 ≤ addr) → p.submit ctx addr a = .refused .outsideWindow) ∧
  (∀ (p : Platform) (k ctx off : Nat) (sl : Slot) (hd : Hold) (a : BusAccess), p.wf = true → p.slots[k]? = some sl →
    off < 0x400 → sl.hold = some hd → hd.ctx ≠ ctx → p.submit ctx (sl.base + off) a = .refused .instanceInUse) ∧
  (∀ (p : Platform) (k ctx off : Nat) (sl : Slot) (a : BusAccess) (op : HostOp), p.wf = true →
    p.slots[k]? = some sl → off < 0x400 → (∀ hd, sl.hold = some hd → hd.ctx = ctx) →
    ((∃ width, a = .read width ∧ op = .rd width (BitVec.ofNat 10 off)) ∨
      ∃ width x, a = .write width x ∧ op = .wr width (BitVec.ofNat 10 off) x) →
    ∃ q sl', p.submit ctx (sl.base + off) a = .next q ∧ q.nInst = p.nInst ∧
      (∀ j, j ≠ k → q.slots[j]? = p.slots[j]?) ∧ q.slots[k]? = some sl' ∧ sl'.base = sl.base ∧
      sl'.engine = { sl.engine with script := sl.engine.script ++ [op] })

/-! ### The host's duties -/

/-- R11: BE32 and BYTES32 are inverse to each other, and BE32 has the value of the formula. -/
def Obligations.BigEndianConversionsAreInverse : Prop :=
  (∀ b0 b1 b2 b3 : Byte, (be32 b0 b1 b2 b3).toNat =
      b0.toNat * 2 ^ 24 + b1.toNat * 2 ^ 16 + b2.toNat * 2 ^ 8 + b3.toNat ∧
    bytes32 (be32 b0 b1 b2 b3) = [b0, b1, b2, b3]) ∧
  (∀ x : Word, ∃ b0 b1 b2 b3, bytes32 x = [b0, b1, b2, b3] ∧ be32 b0 b1 b2 b3 = x)

/-- R82, R83: the number of zero bytes is `(55 - L) mod 64`, the least with `L + 1 + k = 56 mod 64`; the padded message
begins with the message, then 0x80, then those zeros; its length is `L + 9 + k`, a multiple of 64; and it has
`floor((L + 8) / 64) + 1` blocks. -/
def Obligations.PaddingFillsWholeBlocks : Prop :=
  ∀ msg : List Byte,
    ((padZeros msg.length : Int) = (55 - (msg.length : Int)) % 64) ∧
    (msg.length + 1 + padZeros msg.length) % 64 = 56 ∧
    (∀ k, (msg.length + 1 + k) % 64 = 56 → padZeros msg.length ≤ k) ∧
    (padBytes msg).length = msg.length + 9 + padZeros msg.length ∧ (padBytes msg).length % 64 = 0 ∧
    blockCount (padBytes msg) = (msg.length + 8) / 64 + 1 ∧
    (padBytes msg).take (msg.length + 1 + padZeros msg.length) =
      msg ++ 0x80 :: List.replicate (padZeros msg.length) 0x00

/-- R84, R82: the last 8 bytes of the padded message are the length in bits, most significant byte first, whole for
every length the field can hold. -/
def Obligations.PaddingEndsWithTheBitLength : Prop :=
  ∀ msg : List Byte, msg.length < 2 ^ 61 →
    ((padBytes msg).drop (msg.length + 1 + padZeros msg.length)).length = 8 ∧
    ((padBytes msg).drop (msg.length + 1 + padZeros msg.length)).foldl (fun n b => n * 256 + b.toNat) 0 =
      8 * msg.length

/-- R85: from `L = 2^61` bytes on the host signals input-too-large, computes no digest and drives no engine; below, it
does both. The form of the signal is the model's (log entry 16). -/
def Obligations.InputTooLargeIsSignalled : Prop :=
  ∀ (msg : List Byte) (how : Nat → BlockForm),
    (2 ^ 64 ≤ 8 * msg.length → digest msg = .error .inputTooLarge ∧ digestProgram how msg = .error .inputTooLarge) ∧
    (8 * msg.length < 2 ^ 64 →
      (∃ d, digest msg = .ok d) ∧ ∃ p, digestProgram how msg = .ok p ∧ scriptWellFormed p = true)

/-- R92, R93: a digest is exactly 32 bytes, those of the eight words of H in order, each most significant byte first; its
hexadecimal form is 64 characters of 0-9a-f, two a byte, high nibble first, with these sixteen digits. -/
def Obligations.DigestIsThirtyTwoBytes : Prop :=
  (∀ h : Words8, digestBytes h =
    bytes32 h[0] ++ bytes32 h[1] ++ bytes32 h[2] ++ bytes32 h[3] ++ bytes32 h[4] ++ bytes32 h[5] ++ bytes32 h[6] ++
      bytes32 h[7]) ∧
  (∀ x : Word, bytes32 x =
    [x.extractLsb' 24 8, x.extractLsb' 16 8, x.extractLsb' 8 8, x.extractLsb' 0 8]) ∧
  (∀ (msg d : List Byte), digest msg = .ok d → d.length = 32 ∧ (hexChars d).length = 64 ∧
    ∀ c ∈ hexChars d, c ∈ "0123456789abcdef".toList) ∧
  (∀ (a b : List Byte) (x : Byte), hexChars (a ++ x :: b) =
    hexChars a ++ hexDigit (x.extractLsb' 4 4) :: hexDigit (x.extractLsb' 0 4) :: hexChars b) ∧
  hexDigit 0 = '0' ∧ hexDigit 1 = '1' ∧ hexDigit 2 = '2' ∧ hexDigit 3 = '3' ∧ hexDigit 4 = '4' ∧ hexDigit 5 = '5' ∧
  hexDigit 6 = '6' ∧ hexDigit 7 = '7' ∧ hexDigit 8 = '8' ∧ hexDigit 9 = '9' ∧ hexDigit 10 = 'a' ∧ hexDigit 11 = 'b' ∧
  hexDigit 12 = 'c' ∧ hexDigit 13 = 'd' ∧ hexDigit 14 = 'e' ∧ hexDigit 15 = 'f'

/-- R88, R95, R81, R90, with the words of R86 and R87: the host's digest procedure, each block by BLOCK or by EXPAND,
COMPRESS and ACCUM as `how` chooses, run on an engine in any state (a command may even be in flight, with any latency, and
flags may be set), ends its blocks idle and reads a STATUS with no error; the host then reads H, and what it reads is the
chained hash state of the blocks of the padded message, from which it makes exactly the digest: nothing of before, and no
latency or unspecified value, reaches it. With an error in STATUS[3:1] the host signals EngineError and makes no further
access. The host's program is the model's form of R88 (log entry 16); `observed` is the model's own (log entry 7). -/
def Obligations.HostProcedureComputesTheDigest : Prop :=
  (∀ (padded : List Byte) (b : Nat) (i : Fin 16) (h : 64 * b + 64 ≤ padded.length),
    (blockWords padded b)[i] = be32 (padded[64 * b + 4 * i.val]'(by omega)) (padded[64 * b + 4 * i.val + 1]'(by omega))
      (padded[64 * b + 4 * i.val + 2]'(by omega)) (padded[64 * b + 4 * i.val + 3]'(by omega))) ∧
  (∀ (s : State) (msg : List Byte) (how : Nat → BlockForm) (p : List HostOp), digestProgram how msg = .ok p →
    s.inReset = false → s.script = p →
    ∃ (n : Nat) (t : State) (status : Word), core.run n s = .next t ∧ t.ended ∧ t.observed = s.observed ++ [status] ∧
      digestContinue status = .ok opRdh ∧
      ∃ (m : Nat) (u : State) (h : Words8), core.run m { t with script := opRdh } = .next u ∧ u.ended ∧
        u.observed = t.observed ++ h.toList ∧ digest msg = .ok (digestBytes h) ∧
        ∀ hs : Nat → Words8, hs 0 = initialHash →
          (∀ b, b < blockCount (padBytes msg) →
            hs (b + 1) = accumulate (hs b) (compress (hs b) (expand (blockWords (padBytes msg) b)))) →
          h = hs (blockCount (padBytes msg))) ∧
  (∀ status : Word, status.getLsbD 1 = true ∨ status.getLsbD 2 = true ∨ status.getLsbD 3 = true →
    digestContinue status = .error .engineError)
end

