-- ==== Sys2Proof/Laws/HostProgram.lean ====
section
/-! SUPPORT. `pad`, `digest` and `digestProgram` below and above the bound of 45_host_digest.md R85, and the pieces of the
host's program. -/

namespace Sys2Proof.Machine

theorem pad_of_lt {msg : List Byte} (h : msg.length < 2 ^ 61) : pad msg = .ok (padBytes msg) := if_pos h

theorem pad_of_ge {msg : List Byte} (h : ¬msg.length < 2 ^ 61) : pad msg = .error .inputTooLarge := if_neg h

theorem digest_of_lt {msg : List Byte} (h : msg.length < 2 ^ 61) :
    digest msg = .ok (digestBytes (hashBlocks (blocksOf (padBytes msg)))) := by
  unfold digest
  rw [pad_of_lt h]

theorem digestProgram_of_lt {msg : List Byte} (how : Nat → BlockForm) (h : msg.length < 2 ^ 61) :
    digestProgram how msg =
      .ok ([.wait, opClr, opCmd .init, .wait] ++ blockLoop how (padBytes msg) ++ [opRd offStatus]) := by
  unfold digestProgram
  rw [pad_of_lt h]

theorem digestProgram_of_ge {msg : List Byte} (how : Nat → BlockForm) (h : ¬msg.length < 2 ^ 61) :
    digestProgram how msg = .error .inputTooLarge := by
  unfold digestProgram
  rw [pad_of_ge h]

theorem digestContinue_of_clear {status : Word} (h : status.extractLsb' 1 3 = 0) :
    digestContinue status = .ok opRdh := if_pos h

theorem digestContinue_of_set {status : Word} (h : status.extractLsb' 1 3 ≠ 0) :
    digestContinue status = .error .engineError := if_neg h

/-- Every access of the block loop is a write of 32 bits to CMD or M, or a `wait`. -/
theorem mem_blockLoop {how : Nat → BlockForm} {padded : List Byte} {op : HostOp} (h : op ∈ blockLoop how padded) :
    op = .wait ∨ (∃ i, op = opCmd i) ∨ ∃ i x, op = opLdm i x := by
  simp only [blockLoop, blockProgram, opLdblk, List.mem_flatMap, List.mem_append, List.mem_map] at h
  obtain ⟨b, -, ⟨i, -, rfl⟩ | h⟩ := h
  · exact .inr (.inr ⟨_, _, rfl⟩)
  · cases hb : how b <;> rw [hb] at h <;> simp only [blockCommands, List.mem_cons, List.not_mem_nil, or_false] at h
    · rcases h with rfl | rfl
      · exact .inr (.inl ⟨_, rfl⟩)
      · exact .inl rfl
    · rcases h with rfl | rfl | rfl | rfl | rfl | rfl <;> first | exact .inl rfl | exact .inr (.inl ⟨_, rfl⟩)

theorem classify_offCmd : classify offCmd = .cmd := by decide

theorem classify_offStatus : classify offStatus = .status := by decide

theorem classify_offM (i : Fin 16) : classify (offM i) = .m i := by
  revert i; decide

theorem classify_offH (j : Fin 8) : classify (offH j) = .h j := by
  revert j; decide

end Sys2Proof.Machine
end

