-- ==== Sys2Proof/Laws/Operands.lean ====
section
/-! SUPPORT. The spec lemma of `classify` (20_memory.md R31, R32): which class an offset has, and the range it is in. -/

namespace Sys2Proof.Machine

/-- Every offset is in exactly the case of its class. -/
theorem classify_cases (off : Offset) :
    (classify off = .misaligned ∧ off.toNat % 4 ≠ 0) ∨
    (classify off = .id ∧ off.toNat = 0x000) ∨
    (classify off = .cmd ∧ off.toNat = 0x004) ∨
    (classify off = .status ∧ off.toNat = 0x008) ∨
    (∃ i : Fin 16, classify off = .m i ∧ off.toNat = 0x040 + 4 * i.val) ∨
    (∃ j : Fin 8, classify off = .h j ∧ off.toNat = 0x080 + 4 * j.val) ∨
    (∃ j : Fin 8, classify off = .v j ∧ off.toNat = 0x0A0 + 4 * j.val) ∨
    (∃ i : Fin 64, classify off = .w i ∧ off.toNat = 0x100 + 4 * i.val) ∨
    (∃ i : Fin 64, classify off = .k i ∧ off.toNat = 0x200 + 4 * i.val) ∨
    (classify off = .rsvd ∧ off.toNat % 4 = 0 ∧
      ((0x00C ≤ off.toNat ∧ off.toNat ≤ 0x03C) ∨ (0x0C0 ≤ off.toNat ∧ off.toNat ≤ 0x0FC) ∨ 0x300 ≤ off.toNat)) := by
  generalize hc : classify off = c
  unfold classify at hc
  dsimp only at hc
  repeat' split at hc
  all_goals subst hc
  · simp_all
  · simp_all
  · simp_all
  · simp_all
  · refine .inr (.inr (.inr (.inr (.inl ⟨_, rfl, ?_⟩)))); dsimp only; omega
  · refine .inr (.inr (.inr (.inr (.inr (.inl ⟨_, rfl, ?_⟩))))); dsimp only; omega
  · refine .inr (.inr (.inr (.inr (.inr (.inr (.inl ⟨_, rfl, ?_⟩)))))); dsimp only; omega
  · refine .inr (.inr (.inr (.inr (.inr (.inr (.inr (.inl ⟨_, rfl, ?_⟩))))))); dsimp only; omega
  · refine .inr (.inr (.inr (.inr (.inr (.inr (.inr (.inr (.inl ⟨_, rfl, ?_⟩)))))))); dsimp only; omega
  · refine .inr (.inr (.inr (.inr (.inr (.inr (.inr (.inr (.inr ⟨rfl, ?_⟩)))))))); omega

end Sys2Proof.Machine
end

