-- ==== Sys2Proof/Laws/PerInstr.lean ====
section
/-! SUPPORT. The family EncodingInRange of LAWS.json: one lemma per command about its word (30_encoding.md R48, R50). -/

namespace Sys2Proof.Laws.EncodingInRange

/-- The word of a command has `RSV = 0` and `OP < 0x08` (R48, R50). -/
def Statement (i : Instr) : Prop := rsvField (encode i) = 0 ∧ (opField (encode i)).toNat < 0x08

theorem nop : Statement .nop := ⟨by decide, by decide⟩

theorem init : Statement .init := ⟨by decide, by decide⟩

theorem expand : Statement .expand := ⟨by decide, by decide⟩

theorem loadv : Statement .loadv := ⟨by decide, by decide⟩

theorem round : Statement .round := ⟨by decide, by decide⟩

theorem compress : Statement .compress := ⟨by decide, by decide⟩

theorem accum : Statement .accum := ⟨by decide, by decide⟩

theorem block : Statement .block := ⟨by decide, by decide⟩

end Sys2Proof.Laws.EncodingInRange
end

