-- ==== Sys2Proof/Laws/Platform.lean ====
section
/-! SUPPORT. What a window contains and when two windows are apart, as arithmetic; what routing finds; what issuing an
access or a program does; and how a hold moves through a digest. -/

namespace Sys2Proof.Machine

theorem Slot.contains_iff (sl : Slot) (addr : Nat) :
    sl.contains addr = true ↔ sl.base ≤ addr ∧ addr < sl.base + 0x400 := by
  simp only [Slot.contains, Bool.and_eq_true, decide_eq_true_eq]; rfl

theorem Slot.apart_iff (a b : Slot) : a.apart b = true ↔ a.base + 0x400 ≤ b.base ∨ b.base + 0x400 ≤ a.base := by
  simp only [Slot.apart, Bool.or_eq_true, decide_eq_true_eq]; rfl

theorem routeFrom_cons_hit {k : Nat} {sl : Slot} {rest : List Slot} {addr : Nat} (h : sl.contains addr = true) :
    routeFrom k (sl :: rest) addr = some (k, sl.offset addr) := by
  simp [routeFrom, h]

theorem routeFrom_cons_miss {k : Nat} {sl : Slot} {rest : List Slot} {addr : Nat} (h : ¬sl.contains addr = true) :
    routeFrom k (sl :: rest) addr = routeFrom (k + 1) rest addr := by
  simp [routeFrom, h]

@[simp] theorem Platform.setSlot_nInst (p : Platform) (k : Nat) (sl : Slot) : (p.setSlot k sl).nInst = p.nInst := by
  simp [Platform.setSlot, Platform.nInst]

theorem Platform.setSlot_other (p : Platform) (sl : Slot) {j k : Nat} (h : j ≠ k) :
    (p.setSlot k sl).slots[j]? = p.slots[j]? := by
  simp [Platform.setSlot, Ne.symm h]

theorem Platform.setSlot_self {p : Platform} {k : Nat} {sl : Slot} (sl' : Slot) (h : p.slots[k]? = some sl) :
    (p.setSlot k sl').slots[k]? = some sl' := by
  obtain ⟨hk, -⟩ := List.getElem?_eq_some_iff.1 h
  simp [Platform.setSlot, hk]

@[simp] theorem Platform.setSlot_setSlot (p : Platform) (k : Nat) (a b : Slot) :
    (p.setSlot k a).setSlot k b = p.setSlot k b := by
  simp [Platform.setSlot]

theorem Platform.setSlot_same {p : Platform} {k : Nat} {sl : Slot} (h : p.slots[k]? = some sl) : p.setSlot k sl = p := by
  obtain ⟨hk, he⟩ := List.getElem?_eq_some_iff.1 h
  cases p
  subst he
  simp [Platform.setSlot]

@[simp] theorem Slot.accept_base (sl : Slot) (ctx : Nat) (op : HostOp) : (sl.accept ctx op).base = sl.base := rfl

@[simp] theorem Slot.accept_hold (sl : Slot) (ctx : Nat) (op : HostOp) :
    (sl.accept ctx op).hold = holdAfter ctx op sl.hold := rfl

@[simp] theorem Slot.accept_engine (sl : Slot) (ctx : Nat) (op : HostOp) :
    (sl.accept ctx op).engine = { sl.engine with script := sl.engine.script ++ [op] } := rfl

theorem Slot.admits_iff (sl : Slot) (ctx : Nat) : sl.admits ctx = true ↔ ∀ hd, sl.hold = some hd → hd.ctx = ctx := by
  unfold Slot.admits
  cases sl.hold <;> simp

/-- A context that the instance admits is admitted after its own access too. -/
theorem Slot.accept_admits {sl : Slot} {ctx : Nat} (op : HostOp) (h : sl.admits ctx = true) :
    (sl.accept ctx op).admits ctx = true := by
  rw [Slot.admits_iff] at h ⊢
  intro hd hhd
  rw [Slot.accept_hold] at hhd
  cases hs : sl.hold with
  | none =>
    rw [hs] at hhd
    simp only [holdAfter] at hhd
    split at hhd <;> cases hhd
    rfl
  | some hd0 =>
    rw [hs] at hhd
    cases hhd
    exact h hd0 hs

theorem Platform.submitOp_of_admits {p : Platform} {ctx k : Nat} {op : HostOp} {sl : Slot} (hk : p.slots[k]? = some sl)
    (hr : op.isReset = false) (ha : sl.admits ctx = true) :
    p.submitOp ctx k op = .next (p.setSlot k (sl.accept ctx op)) := by
  simp [Platform.submitOp, hk, hr, ha]

theorem Platform.submitOp_of_held {p : Platform} {ctx k : Nat} {op : HostOp} {sl : Slot} {hd : Hold}
    (hk : p.slots[k]? = some sl) (hr : op.isReset = false) (hh : sl.hold = some hd) (hc : hd.ctx ≠ ctx) :
    p.submitOp ctx k op = .refused .instanceInUse := by
  simp [Platform.submitOp, hk, hr, Slot.admits, hh, hc]

/-- A program of a context that the instance admits is accepted whole, access by access. -/
theorem Platform.submitAll_of_admits {ctx k : Nat} {ops : List HostOp} (hr : ∀ op ∈ ops, op.isReset = false)
    {p : Platform} {sl : Slot} (hk : p.slots[k]? = some sl) (ha : sl.admits ctx = true) :
    p.submitAll ctx k ops = .next (p.setSlot k (ops.foldl (fun a op => a.accept ctx op) sl)) := by
  induction ops generalizing p sl with
  | nil => rw [Platform.submitAll, List.foldl_nil, Platform.setSlot_same hk]
  | cons op rest ih =>
    simp only [List.mem_cons, forall_eq_or_imp] at hr
    rw [Platform.submitAll, Platform.submitOp_of_admits hk hr.1 ha]
    show Platform.submitAll _ ctx k rest = _
    rw [ih hr.2 (Platform.setSlot_self _ hk) (Slot.accept_admits op ha), Platform.setSlot_setSlot, List.foldl_cons]

theorem Slot.acceptAll_engine (ctx : Nat) (ops : List HostOp) (sl : Slot) :
    (ops.foldl (fun a op => a.accept ctx op) sl).engine =
      { sl.engine with script := sl.engine.script ++ ops } := by
  induction ops generalizing sl with
  | nil => simp
  | cons op rest ih => rw [List.foldl_cons, ih]; simp

theorem Slot.acceptAll_hold (ctx : Nat) (ops : List HostOp) (sl : Slot) :
    (ops.foldl (fun a op => a.accept ctx op) sl).hold = ops.foldl (fun hd op => holdAfter ctx op hd) sl.hold := by
  induction ops generalizing sl with
  | nil => rfl
  | cons op rest ih => rw [List.foldl_cons, ih]; rfl

theorem holdAll_some (ctx : Nat) (ops : List HostOp) (hd : Hold) :
    ops.foldl (fun hd op => holdAfter ctx op hd) (some hd) =
      some { hd with phase := ops.foldl HoldPhase.after hd.phase } := by
  induction ops generalizing hd with
  | nil => rfl
  | cons op rest ih => rw [List.foldl_cons]; exact ih _

/-- A `clr` begins a digest, whatever went before (R96). -/
theorem HoldPhase.after_clr (ph : HoldPhase) : ph.after opClr = .digest := by
  cases ph <;> decide

theorem HoldPhase.digest_after_write (width : Width) (off : Offset) (x : Word) :
    HoldPhase.digest.after (.wr width off x) = .digest := rfl

theorem HoldPhase.digest_after_wait : HoldPhase.digest.after .wait = .digest := rfl

end Sys2Proof.Machine
end

