-- ==== Sys2Proof/Laws/State.lean ====
section
/-! SUPPORT. One lemma per field of State and per named update, so that no proof unfolds a record update, and what BUSY is
after each. -/

namespace Sys2Proof.Machine

section raise
variable (f : Flag) (s : State)

@[simp] theorem raise_h : (raise f s).h = s.h := rfl
@[simp] theorem raise_v : (raise f s).v = s.v := rfl
@[simp] theorem raise_w : (raise f s).w = s.w := rfl
@[simp] theorem raise_m : (raise f s).m = s.m := rfl
@[simp] theorem raise_rc : (raise f s).rc = s.rc := rfl
@[simp] theorem raise_pend : (raise f s).pend = s.pend := rfl
@[simp] theorem raise_ill : (raise f s).ill = (s.ill || (f == .ill)) := rfl
@[simp] theorem raise_ovr : (raise f s).ovr = (s.ovr || (f == .ovr)) := rfl
@[simp] theorem raise_accerr : (raise f s).accerr = (s.accerr || (f == .accerr)) := rfl
@[simp] theorem raise_inReset : (raise f s).inReset = s.inReset := rfl
@[simp] theorem raise_delay : (raise f s).delay = s.delay := rfl
@[simp] theorem raise_issues : (raise f s).issues = s.issues := rfl
@[simp] theorem raise_draws : (raise f s).draws = s.draws := rfl
@[simp] theorem raise_script : (raise f s).script = s.script := rfl
@[simp] theorem raise_observed : (raise f s).observed = s.observed := rfl
@[simp] theorem raise_busy : (raise f s).busy = s.busy := rfl

end raise

section issue
variable (i : Instr) (s : State)

@[simp] theorem issue_h : (issue i s).h = s.h := rfl
@[simp] theorem issue_v : (issue i s).v = s.v := rfl
@[simp] theorem issue_w : (issue i s).w = s.w := rfl
@[simp] theorem issue_m : (issue i s).m = s.m := rfl
@[simp] theorem issue_rc : (issue i s).rc = s.rc := rfl
@[simp] theorem issue_pend : (issue i s).pend = some i := rfl
@[simp] theorem issue_ill : (issue i s).ill = s.ill := rfl
@[simp] theorem issue_ovr : (issue i s).ovr = s.ovr := rfl
@[simp] theorem issue_accerr : (issue i s).accerr = s.accerr := rfl
@[simp] theorem issue_inReset : (issue i s).inReset = s.inReset := rfl
@[simp] theorem issue_delay : (issue i s).delay = Config.latency i s.issues := rfl
@[simp] theorem issue_issues : (issue i s).issues = s.issues + 1 := rfl
@[simp] theorem issue_draws : (issue i s).draws = s.draws := rfl
@[simp] theorem issue_script : (issue i s).script = s.script := rfl
@[simp] theorem issue_observed : (issue i s).observed = s.observed := rfl
@[simp] theorem issue_busy : (issue i s).busy = true := rfl

end issue

section retire
variable (s : State)

@[simp] theorem retire_h : (retire s).h = s.h := rfl
@[simp] theorem retire_v : (retire s).v = s.v := rfl
@[simp] theorem retire_w : (retire s).w = s.w := rfl
@[simp] theorem retire_m : (retire s).m = s.m := rfl
@[simp] theorem retire_rc : (retire s).rc = s.rc := rfl
@[simp] theorem retire_pend : (retire s).pend = none := rfl
@[simp] theorem retire_ill : (retire s).ill = s.ill := rfl
@[simp] theorem retire_ovr : (retire s).ovr = s.ovr := rfl
@[simp] theorem retire_accerr : (retire s).accerr = s.accerr := rfl
@[simp] theorem retire_inReset : (retire s).inReset = s.inReset := rfl
@[simp] theorem retire_delay : (retire s).delay = 0 := rfl
@[simp] theorem retire_issues : (retire s).issues = s.issues := rfl
@[simp] theorem retire_draws : (retire s).draws = s.draws := rfl
@[simp] theorem retire_script : (retire s).script = s.script := rfl
@[simp] theorem retire_observed : (retire s).observed = s.observed := rfl
@[simp] theorem retire_busy : (retire s).busy = false := rfl

end retire

section engineReset
variable (s : State)

@[simp] theorem engineReset_h : (engineReset s).h = initialHash := rfl
@[simp] theorem engineReset_v : (engineReset s).v = Vector.replicate 8 0 := rfl
@[simp] theorem engineReset_w : (engineReset s).w = Vector.replicate 64 0 := rfl
@[simp] theorem engineReset_m : (engineReset s).m = Vector.replicate 16 0 := rfl
@[simp] theorem engineReset_rc : (engineReset s).rc = 0 := rfl
@[simp] theorem engineReset_pend : (engineReset s).pend = none := rfl
@[simp] theorem engineReset_ill : (engineReset s).ill = false := rfl
@[simp] theorem engineReset_ovr : (engineReset s).ovr = false := rfl
@[simp] theorem engineReset_accerr : (engineReset s).accerr = false := rfl
@[simp] theorem engineReset_inReset : (engineReset s).inReset = s.inReset := rfl
@[simp] theorem engineReset_delay : (engineReset s).delay = 0 := rfl
@[simp] theorem engineReset_issues : (engineReset s).issues = s.issues := rfl
@[simp] theorem engineReset_draws : (engineReset s).draws = s.draws := rfl
@[simp] theorem engineReset_script : (engineReset s).script = s.script := rfl
@[simp] theorem engineReset_observed : (engineReset s).observed = s.observed := rfl
@[simp] theorem engineReset_busy : (engineReset s).busy = false := rfl

end engineReset

section setM
variable (i : Fin 16) (x : Word) (s : State)

@[simp] theorem setM_h : (setM i x s).h = s.h := rfl
@[simp] theorem setM_v : (setM i x s).v = s.v := rfl
@[simp] theorem setM_w : (setM i x s).w = s.w := rfl
@[simp] theorem setM_m : (setM i x s).m = s.m.set i.val x i.isLt := rfl
@[simp] theorem setM_rc : (setM i x s).rc = s.rc := rfl
@[simp] theorem setM_pend : (setM i x s).pend = s.pend := rfl
@[simp] theorem setM_ill : (setM i x s).ill = s.ill := rfl
@[simp] theorem setM_ovr : (setM i x s).ovr = s.ovr := rfl
@[simp] theorem setM_accerr : (setM i x s).accerr = s.accerr := rfl
@[simp] theorem setM_inReset : (setM i x s).inReset = s.inReset := rfl
@[simp] theorem setM_delay : (setM i x s).delay = s.delay := rfl
@[simp] theorem setM_issues : (setM i x s).issues = s.issues := rfl
@[simp] theorem setM_draws : (setM i x s).draws = s.draws := rfl
@[simp] theorem setM_script : (setM i x s).script = s.script := rfl
@[simp] theorem setM_observed : (setM i x s).observed = s.observed := rfl
@[simp] theorem setM_busy : (setM i x s).busy = s.busy := rfl

end setM

section clearFlags
variable (x : Word) (s : State)

@[simp] theorem clearFlags_h : (clearFlags x s).h = s.h := rfl
@[simp] theorem clearFlags_v : (clearFlags x s).v = s.v := rfl
@[simp] theorem clearFlags_w : (clearFlags x s).w = s.w := rfl
@[simp] theorem clearFlags_m : (clearFlags x s).m = s.m := rfl
@[simp] theorem clearFlags_rc : (clearFlags x s).rc = s.rc := rfl
@[simp] theorem clearFlags_pend : (clearFlags x s).pend = s.pend := rfl
@[simp] theorem clearFlags_ill : (clearFlags x s).ill = (s.ill && !x.getLsbD 1) := rfl
@[simp] theorem clearFlags_ovr : (clearFlags x s).ovr = (s.ovr && !x.getLsbD 2) := rfl
@[simp] theorem clearFlags_accerr : (clearFlags x s).accerr = (s.accerr && !x.getLsbD 3) := rfl
@[simp] theorem clearFlags_inReset : (clearFlags x s).inReset = s.inReset := rfl
@[simp] theorem clearFlags_delay : (clearFlags x s).delay = s.delay := rfl
@[simp] theorem clearFlags_issues : (clearFlags x s).issues = s.issues := rfl
@[simp] theorem clearFlags_draws : (clearFlags x s).draws = s.draws := rfl
@[simp] theorem clearFlags_script : (clearFlags x s).script = s.script := rfl
@[simp] theorem clearFlags_observed : (clearFlags x s).observed = s.observed := rfl
@[simp] theorem clearFlags_busy : (clearFlags x s).busy = s.busy := rfl

end clearFlags

section advance
variable (s : State)

@[simp] theorem advance_h : (advance s).h = s.h := rfl
@[simp] theorem advance_v : (advance s).v = s.v := rfl
@[simp] theorem advance_w : (advance s).w = s.w := rfl
@[simp] theorem advance_m : (advance s).m = s.m := rfl
@[simp] theorem advance_rc : (advance s).rc = s.rc := rfl
@[simp] theorem advance_pend : (advance s).pend = s.pend := rfl
@[simp] theorem advance_ill : (advance s).ill = s.ill := rfl
@[simp] theorem advance_ovr : (advance s).ovr = s.ovr := rfl
@[simp] theorem advance_accerr : (advance s).accerr = s.accerr := rfl
@[simp] theorem advance_inReset : (advance s).inReset = s.inReset := rfl
@[simp] theorem advance_delay : (advance s).delay = s.delay - 1 := rfl
@[simp] theorem advance_issues : (advance s).issues = s.issues := rfl
@[simp] theorem advance_draws : (advance s).draws = s.draws := rfl
@[simp] theorem advance_script : (advance s).script = s.script.tail := rfl
@[simp] theorem advance_observed : (advance s).observed = s.observed := rfl
@[simp] theorem advance_busy : (advance s).busy = s.busy := rfl

end advance

section elapse
variable (s : State)

@[simp] theorem elapse_h : (elapse s).h = s.h := rfl
@[simp] theorem elapse_v : (elapse s).v = s.v := rfl
@[simp] theorem elapse_w : (elapse s).w = s.w := rfl
@[simp] theorem elapse_m : (elapse s).m = s.m := rfl
@[simp] theorem elapse_rc : (elapse s).rc = s.rc := rfl
@[simp] theorem elapse_pend : (elapse s).pend = s.pend := rfl
@[simp] theorem elapse_ill : (elapse s).ill = s.ill := rfl
@[simp] theorem elapse_ovr : (elapse s).ovr = s.ovr := rfl
@[simp] theorem elapse_accerr : (elapse s).accerr = s.accerr := rfl
@[simp] theorem elapse_inReset : (elapse s).inReset = s.inReset := rfl
@[simp] theorem elapse_delay : (elapse s).delay = s.delay - 1 := rfl
@[simp] theorem elapse_issues : (elapse s).issues = s.issues := rfl
@[simp] theorem elapse_draws : (elapse s).draws = s.draws := rfl
@[simp] theorem elapse_script : (elapse s).script = s.script := rfl
@[simp] theorem elapse_observed : (elapse s).observed = s.observed := rfl
@[simp] theorem elapse_busy : (elapse s).busy = s.busy := rfl

end elapse

section observe
variable (x : Word) (s : State)

@[simp] theorem observe_h : (observe x s).h = s.h := rfl
@[simp] theorem observe_v : (observe x s).v = s.v := rfl
@[simp] theorem observe_w : (observe x s).w = s.w := rfl
@[simp] theorem observe_m : (observe x s).m = s.m := rfl
@[simp] theorem observe_rc : (observe x s).rc = s.rc := rfl
@[simp] theorem observe_pend : (observe x s).pend = s.pend := rfl
@[simp] theorem observe_ill : (observe x s).ill = s.ill := rfl
@[simp] theorem observe_ovr : (observe x s).ovr = s.ovr := rfl
@[simp] theorem observe_accerr : (observe x s).accerr = s.accerr := rfl
@[simp] theorem observe_inReset : (observe x s).inReset = s.inReset := rfl
@[simp] theorem observe_delay : (observe x s).delay = s.delay := rfl
@[simp] theorem observe_issues : (observe x s).issues = s.issues := rfl
@[simp] theorem observe_draws : (observe x s).draws = s.draws := rfl
@[simp] theorem observe_script : (observe x s).script = s.script := rfl
@[simp] theorem observe_observed : (observe x s).observed = s.observed ++ [x] := rfl
@[simp] theorem observe_busy : (observe x s).busy = s.busy := rfl

end observe

section afterRead
variable (c : RegClass) (s : State)

@[simp] theorem afterRead_h : (afterRead c s).h = s.h := by
  unfold afterRead; split <;> rfl
@[simp] theorem afterRead_v : (afterRead c s).v = s.v := by
  unfold afterRead; split <;> rfl
@[simp] theorem afterRead_w : (afterRead c s).w = s.w := by
  unfold afterRead; split <;> rfl
@[simp] theorem afterRead_m : (afterRead c s).m = s.m := by
  unfold afterRead; split <;> rfl
@[simp] theorem afterRead_rc : (afterRead c s).rc = s.rc := by
  unfold afterRead; split <;> rfl
@[simp] theorem afterRead_pend : (afterRead c s).pend = s.pend := by
  unfold afterRead; split <;> rfl
@[simp] theorem afterRead_ill : (afterRead c s).ill = s.ill := by
  unfold afterRead; split <;> rfl
@[simp] theorem afterRead_ovr : (afterRead c s).ovr = s.ovr := by
  unfold afterRead; split <;> rfl
@[simp] theorem afterRead_accerr : (afterRead c s).accerr = s.accerr := by
  unfold afterRead; split <;> rfl
@[simp] theorem afterRead_inReset : (afterRead c s).inReset = s.inReset := by
  unfold afterRead; split <;> rfl
@[simp] theorem afterRead_delay : (afterRead c s).delay = s.delay := by
  unfold afterRead; split <;> rfl
@[simp] theorem afterRead_issues : (afterRead c s).issues = s.issues := by
  unfold afterRead; split <;> rfl
@[simp] theorem afterRead_draws : (afterRead c s).draws = (if c.isData && s.busy then s.draws + 1 else s.draws) := by
  unfold afterRead; split <;> rfl
@[simp] theorem afterRead_script : (afterRead c s).script = s.script := by
  unfold afterRead; split <;> rfl
@[simp] theorem afterRead_observed : (afterRead c s).observed = s.observed := by
  unfold afterRead; split <;> rfl
@[simp] theorem afterRead_busy : (afterRead c s).busy = s.busy := by simp [State.busy]

end afterRead

@[simp] theorem busy_of_pend_none {s : State} (h : s.pend = none) : s.busy = false := by simp [State.busy, h]

@[simp] theorem busy_of_pend_some {s : State} {i : Instr} (h : s.pend = some i) : s.busy = true := by
  simp [State.busy, h]

theorem busy_eq_true_iff (s : State) : s.busy = true ↔ ∃ i, s.pend = some i := by
  simp [State.busy, Option.isSome_iff_exists]

theorem busy_eq_false_iff (s : State) : s.busy = false ↔ s.pend = none := by
  simp [State.busy]

end Sys2Proof.Machine
end

