-- ==== Sys2Proof/Laws/Step.lean ====
section
/-! SUPPORT. What one step can do, said once: whose move is next, what a host move leaves, what a register write leaves,
what a command leaves. Later proofs cite these and do not unfold `step`, `hostMove`, `regWrite` or `exec`. -/

namespace Sys2Proof.Machine

/-! ### Whose move is next -/

theorem nextMove_engine_iff (s : State) (i : Instr) : nextMove s = .engine i ↔ s.engineTurn i := by
  unfold nextMove
  cases hsc : s.script with
  | nil =>
    cases hp : s.pend with
    | none => simp [State.engineTurn, hp]
    | some j =>
      cases hr : s.inReset <;> simp [State.engineTurn, hp, hr, hsc]
  | cons op rest =>
    cases hp : s.pend with
    | none => simp [State.engineTurn, hp]
    | some j =>
      by_cases hc : (op.isReset || s.inReset || s.delay != 0) = true
      · simp only [hc, if_true]
        simp only [Bool.or_eq_true, bne_iff_ne, ne_eq] at hc
        simp only [reduceCtorEq, State.engineTurn, hsc, hp, false_iff, not_and, not_or]
        rintro - hr
        simp [hr] at hc
        simp
        intro hd
        rcases hc with hc | hc
        · simpa using hc
        · exact absurd hd hc
      · have hc' : (op.isReset || s.inReset || s.delay != 0) = false := by simpa using hc
        simp only [hc', Bool.false_eq_true, if_false]
        simp only [Bool.or_eq_false_iff, bne_eq_false_iff_eq] at hc'
        simp [State.engineTurn, hp, hsc, hc'.1.1, hc'.1.2, hc'.2]

theorem nextMove_of_hostTurn {s : State} {op : HostOp} {rest : List HostOp} (h : s.hostTurn op rest) :
    nextMove s = .host op := by
  obtain ⟨hsc, hr, hd⟩ := h
  unfold nextMove
  rw [hsc]
  cases hp : s.pend with
  | none => rfl
  | some j =>
    have : s.delay ≠ 0 := by simpa [hp] using hd
    simp [this]

theorem nextMove_of_reset {s : State} {op : HostOp} {rest : List HostOp} (h : s.script = op :: rest)
    (hop : op.isReset = true ∨ s.inReset = true) : nextMove s = .host op := by
  unfold nextMove
  rw [h]
  cases hp : s.pend with
  | none => rfl
  | some j => rcases hop with h | h <;> simp [h]

/-- A host move: a reset event, an access while reset is asserted, or an access on the host's turn. -/
theorem host_cases {s : State} {op : HostOp} (h : nextMove s = .host op) :
    ∃ rest, s.script = op :: rest ∧ (op.isReset = true ∨ s.inReset = true ∨ s.hostTurn op rest) := by
  unfold nextMove at h
  cases hsc : s.script with
  | nil => rw [hsc] at h; cases hp : s.pend <;> simp [hp] at h; split at h <;> cases h
  | cons op' rest =>
    rw [hsc] at h
    cases hp : s.pend with
    | none =>
      simp [hp] at h
      subst h
      refine ⟨rest, rfl, ?_⟩
      cases hr : s.inReset <;> simp [State.hostTurn, hsc, hr, hp]
    | some j =>
      simp only [hp] at h
      split at h
      · rename_i hc
        cases h
        refine ⟨rest, rfl, ?_⟩
        simp only [Bool.or_eq_true, bne_iff_ne, ne_eq] at hc
        cases hr : s.inReset with
        | true => simp
        | false =>
          rcases hc with (hc | hc) | hc
          · exact .inl hc
          · simp [hr] at hc
          · exact .inr (.inr ⟨hsc, hr, .inr hc⟩)
      · cases h

theorem idle_cases {s : State} (h : nextMove s = .idle) : s.script = [] ∧ (s.pend = none ∨ s.inReset = true) := by
  unfold nextMove at h
  cases hsc : s.script with
  | nil =>
    rw [hsc] at h
    cases hp : s.pend with
    | none => simp
    | some j => cases hr : s.inReset <;> simp [hp, hr] at h ⊢
  | cons op rest =>
    rw [hsc] at h
    cases hp : s.pend <;> simp [hp] at h
    split at h <;> cases h

/-! ### The step -/

theorem step_of_engineTurn {s : State} {i : Instr} (h : s.engineTurn i) : step s = completion (exec i s) := by
  unfold step
  rw [(nextMove_engine_iff s i).2 h]

theorem step_of_hostTurn {s : State} {op : HostOp} {rest : List HostOp} (h : s.hostTurn op rest) :
    step s = hostMove op s := by
  unfold step
  rw [nextMove_of_hostTurn h]

theorem step_of_reset {s : State} {op : HostOp} {rest : List HostOp} (h : s.script = op :: rest)
    (hop : op.isReset = true ∨ s.inReset = true) : step s = hostMove op s := by
  unfold step
  rw [nextMove_of_reset h hop]

/-- What a step that answers a next state did: it completed a command, it was a reset event, it was an access on the
host's turn, or it was idle. -/
theorem step_cases {s t : State} (h : step s = .next t) :
    (∃ i, s.engineTurn i ∧ completion (exec i s) = .next t) ∨
    (∃ rest, s.script = .assertReset :: rest ∧ t = resetAssert s) ∨
    (∃ rest, s.script = .releaseReset :: rest ∧ t = resetRelease s) ∨
    (∃ op rest, s.hostTurn op rest ∧ op.isReset = false ∧ hostMove op s = .next t) ∨
    (s.script = [] ∧ (s.pend = none ∨ s.inReset = true) ∧ t = s) := by
  unfold step at h
  cases hm : nextMove s with
  | engine i => rw [hm] at h; exact .inl ⟨i, (nextMove_engine_iff s i).1 hm, h⟩
  | idle =>
    rw [hm] at h
    cases h
    exact .inr (.inr (.inr (.inr ⟨(idle_cases hm).1, (idle_cases hm).2, rfl⟩)))
  | host op =>
    rw [hm] at h
    obtain ⟨rest, hsc, hc⟩ := host_cases hm
    cases op with
    | assertReset => cases h; exact .inr (.inl ⟨rest, hsc, rfl⟩)
    | releaseReset => cases h; exact .inr (.inr (.inl ⟨rest, hsc, rfl⟩))
    | rd width off =>
      rcases hc with hc | hc | hc
      · cases hc
      · simp [hostMove, hostRead, accessRefusal, hc] at h
      · exact .inr (.inr (.inr (.inl ⟨_, rest, hc, rfl, h⟩)))
    | wr width off x =>
      rcases hc with hc | hc | hc
      · cases hc
      · simp [hostMove, hostWrite, accessRefusal, hc] at h
      · exact .inr (.inr (.inr (.inl ⟨_, rest, hc, rfl, h⟩)))
    | expect off x =>
      rcases hc with hc | hc | hc
      · cases hc
      · simp [hostMove, hostExpect, accessRefusal, hc] at h
      · exact .inr (.inr (.inr (.inl ⟨_, rest, hc, rfl, h⟩)))
    | wait =>
      rcases hc with hc | hc | hc
      · cases hc
      · simp [hostMove, hostPoll, accessRefusal, hc] at h
      · exact .inr (.inr (.inr (.inl ⟨_, rest, hc, rfl, h⟩)))

/-- A release of a line that is not asserted only leaves the script. -/
theorem resetRelease_of_not_asserted {s : State} (h : s.inReset = false) : resetRelease s = advance s := by
  simp [resetRelease, h]

theorem completion_next_iff (o : Host.Outcome State Fault Refusal) (t : State) :
    completion o = .next t ↔ ∃ u, o = .next u ∧ t = retire u := by
  cases o <;> simp [completion, eq_comm]

/-! ### The host's accesses -/

theorem accessRefusal_eq_none_iff (width : Width) (s : State) :
    accessRefusal width s = none ↔ s.inReset = false ∧ width = .w32 := by
  unfold accessRefusal
  cases hr : s.inReset <;> cases width <;> simp

theorem hostRead_of_ready {s : State} (off : Offset) (h : s.inReset = false) :
    hostRead .w32 off s = .next (observe (readValue (classify off) s) (afterRead (classify off) (advance s))) := by
  unfold hostRead
  rw [(accessRefusal_eq_none_iff .w32 s).2 ⟨h, rfl⟩]

theorem hostWrite_of_ready {s : State} (off : Offset) (x : Word) (h : s.inReset = false) :
    hostWrite .w32 off x s = .next (regWrite (classify off) x (advance s)) := by
  unfold hostWrite
  rw [(accessRefusal_eq_none_iff .w32 s).2 ⟨h, rfl⟩]

theorem hostPoll_of_ready {s : State} (h : s.inReset = false) :
    hostPoll s = if (readValue (classify 0x008) s).getLsbD 0 then .next (elapse s) else .next (advance s) := by
  unfold hostPoll
  rw [(accessRefusal_eq_none_iff .w32 s).2 ⟨h, rfl⟩]

/-- What a host access that answers a next state did. -/
theorem hostMove_cases {op : HostOp} {s t : State} (hop : op.isReset = false) (h : hostMove op s = .next t) :
    s.inReset = false ∧
    ((∃ off, op = .rd .w32 off ∧ t = observe (readValue (classify off) s) (afterRead (classify off) (advance s))) ∨
     (∃ off x, op = .wr .w32 off x ∧ t = regWrite (classify off) x (advance s)) ∨
     (∃ off x, op = .expect off x ∧ readValue (classify off) s = x ∧ t = afterRead (classify off) (advance s)) ∨
     (op = .wait ∧ (t = elapse s ∨ t = advance s))) := by
  cases op with
  | rd width off =>
    simp only [hostMove, hostRead] at h
    split at h
    · cases h
    · rename_i hr
      obtain ⟨hready, rfl⟩ := (accessRefusal_eq_none_iff _ _).1 hr
      cases h
      exact ⟨hready, .inl ⟨off, rfl, rfl⟩⟩
  | wr width off x =>
    simp only [hostMove, hostWrite] at h
    split at h
    · cases h
    · rename_i hr
      obtain ⟨hready, rfl⟩ := (accessRefusal_eq_none_iff _ _).1 hr
      cases h
      exact ⟨hready, .inr (.inl ⟨off, x, rfl, rfl⟩)⟩
  | expect off x =>
    simp only [hostMove, hostExpect] at h
    split at h
    · cases h
    · rename_i hr
      have hready := ((accessRefusal_eq_none_iff _ _).1 hr).1
      split at h
      · rename_i hx
        cases h
        exact ⟨hready, .inr (.inr (.inl ⟨off, x, rfl, hx, rfl⟩))⟩
      · cases h
  | wait =>
    simp only [hostMove, hostPoll] at h
    split at h
    · cases h
    · rename_i hr
      have hready := ((accessRefusal_eq_none_iff _ _).1 hr).1
      split at h <;> cases h
      · exact ⟨hready, .inr (.inr (.inr ⟨rfl, .inl rfl⟩))⟩
      · exact ⟨hready, .inr (.inr (.inr ⟨rfl, .inr rfl⟩))⟩
  | assertReset => cases hop
  | releaseReset => cases hop

theorem regWrite_cmd_busy {s : State} (x : Word) (h : s.busy = true) : regWrite .cmd x s = raise .ovr s := by
  simp [regWrite, h]

theorem regWrite_cmd_idle {s : State} (x : Word) (h : s.busy = false) : regWrite .cmd x s = writeCommand x s := by
  simp [regWrite, h]

theorem regWrite_m_busy {s : State} (i : Fin 16) (x : Word) (h : s.busy = true) : regWrite (.m i) x s = raise .ovr s := by
  simp [regWrite, h]

theorem regWrite_m_idle {s : State} (i : Fin 16) (x : Word) (h : s.busy = false) : regWrite (.m i) x s = setM i x s := by
  simp [regWrite, h]

theorem writeCommand_legal {s : State} {x : Word} {i : Instr} (h : legalCommand x s.rc = some i) :
    writeCommand x s = issue i s := by
  simp [writeCommand, h]

theorem writeCommand_illegal {s : State} {x : Word} (h : legalCommand x s.rc = none) :
    writeCommand x s = raise .ill s := by
  simp [writeCommand, h]

/-- What a register write does: it raises one flag, clears flags, stores in M, or issues a command; the last two only
while idle. -/
theorem regWrite_cases (c : RegClass) (x : Word) (s : State) :
    (∃ f, regWrite c x s = raise f s) ∨ (c = .status ∧ regWrite c x s = clearFlags x s) ∨
    (∃ i, c = .m i ∧ s.pend = none ∧ regWrite c x s = setM i x s) ∨
    (∃ i, c = .cmd ∧ s.pend = none ∧ legalCommand x s.rc = some i ∧ regWrite c x s = issue i s) := by
  cases c with
  | misaligned => exact .inl ⟨.accerr, rfl⟩
  | id => exact .inl ⟨.accerr, rfl⟩
  | status => exact .inr (.inl ⟨rfl, rfl⟩)
  | h j => exact .inl ⟨.accerr, rfl⟩
  | v j => exact .inl ⟨.accerr, rfl⟩
  | w i => exact .inl ⟨.accerr, rfl⟩
  | k i => exact .inl ⟨.accerr, rfl⟩
  | rsvd => exact .inl ⟨.accerr, rfl⟩
  | m i =>
    cases hb : s.busy with
    | true => exact .inl ⟨.ovr, by simp [regWrite, hb]⟩
    | false => exact .inr (.inr (.inl ⟨i, rfl, (busy_eq_false_iff s).1 hb, by simp [regWrite, hb]⟩))
  | cmd =>
    cases hb : s.busy with
    | true => exact .inl ⟨.ovr, by simp [regWrite, hb]⟩
    | false =>
      cases hl : legalCommand x s.rc with
      | none => exact .inl ⟨.ill, by simp [regWrite, hb, writeCommand, hl]⟩
      | some i =>
        exact .inr (.inr (.inr ⟨i, rfl, (busy_eq_false_iff s).1 hb, rfl, by simp [regWrite, hb, writeCommand, hl]⟩))

theorem legalCommand_eq_some {x : Word} {rc : BitVec 7} {i : Instr} (h : legalCommand x rc = some i) :
    decode x = .ok i ∧ guardOk i rc = true := by
  unfold legalCommand at h
  split at h
  · split at h
    · cases h; exact ⟨by assumption, by assumption⟩
    · cases h
  · cases h

/-! ### The commands -/

theorem exec_round_of_lt {s : State} (h : s.rc.toNat < 64) :
    exec .round s = .next { s with
      v := roundFn s.v roundConstants[s.rc.toNat] s.w[s.rc.toNat], rc := s.rc + 1 } := by
  simp [exec, execRound, h]

theorem exec_accum_of_eq {s : State} (h : s.rc.toNat = 64) :
    exec .accum s = .next { s with h := accumulate s.h s.v, rc := 0 } := by
  simp [exec, execAccum, h]

/-- A command whose guard fails only raises ILL. -/
theorem exec_of_not_guardOk {i : Instr} {s : State} (h : guardOk i s.rc = false) : exec i s = .next (raise .ill s) := by
  cases i <;> simp [guardOk] at h
  · simp [exec, execRound, h]
  · simp [exec, execAccum, h]

/-- What a command that answers a next state left, by command; a guard that fails raises ILL and nothing else. -/
theorem exec_cases {i : Instr} {s t : State} (h : exec i s = .next t) :
    (guardOk i s.rc = false ∧ (i = .round ∨ i = .accum) ∧ t = raise .ill s) ∨
    (i = .nop ∧ t = s) ∨
    (i = .init ∧ t = { s with
      h := initialHash, v := Vector.replicate 8 0, w := Vector.replicate 64 0, m := Vector.replicate 16 0, rc := 0 }) ∨
    (i = .expand ∧ t = { s with w := expand s.m }) ∨
    (i = .loadv ∧ t = { s with v := s.h, rc := 0 }) ∨
    (i = .round ∧ ∃ hn : s.rc.toNat < 64,
      t = { s with v := roundFn s.v roundConstants[s.rc.toNat] s.w[s.rc.toNat], rc := s.rc + 1 }) ∨
    (i = .compress ∧ t = { s with v := compress s.h s.w, rc := 64 }) ∨
    (i = .accum ∧ s.rc.toNat = 64 ∧ t = { s with h := accumulate s.h s.v, rc := 0 }) ∨
    (i = .block ∧ t = { s with
      w := expand s.m, v := compress s.h (expand s.m), h := accumulate s.h (compress s.h (expand s.m)),
      rc := 0 }) := by
  cases i with
  | round =>
    by_cases hg : s.rc.toNat < 64
    · rw [exec_round_of_lt hg] at h; cases h; simp [hg]
    · rw [exec_of_not_guardOk (by simp [guardOk, hg])] at h; cases h; simp [guardOk, hg]
  | accum =>
    by_cases hg : s.rc.toNat = 64
    · rw [exec_accum_of_eq hg] at h; cases h; simp [hg]
    · rw [exec_of_not_guardOk (by simp [guardOk, hg])] at h; cases h; simp [guardOk, hg]
  | nop => cases h; simp
  | init => cases h; simp
  | expand => cases h; simp
  | loadv => cases h; simp
  | compress => cases h; simp
  | block => cases h; simp

end Sys2Proof.Machine
end

