-- ==== Sys2Proof/Laws/Run.lean ====
section
/-! SUPPORT. Runs of several steps: one step, and runs joined; and the `wait` loop of 30_encoding.md R56. -/

namespace Sys2Proof.Machine

theorem run_zero (s : State) : core.run 0 s = .next s := rfl

theorem run_succ_of_next {s t : State} (n : Nat) (h : step s = .next t) : core.run (n + 1) s = core.run n t := by
  have h' : core.step s = .next t := h
  simp only [Host.Core.run, h']

theorem run_succ_of_stop {s : State} (n : Nat) (h : ∀ t, step s ≠ .next t) (t : State) :
    core.run (n + 1) s ≠ .next t := by
  have h' : ∀ t, core.step s ≠ .next t := h
  simp only [Host.Core.run]
  cases hs : core.step s with
  | next u => exact absurd hs (h' u)
  | fault f => simp
  | refused r => simp

theorem run_one_of_next {s t : State} (h : step s = .next t) : core.run 1 s = .next t :=
  run_succ_of_next 0 h

/-- Two runs, one after the other. -/
theorem run_add {a b : Nat} {s t : State} (h : core.run a s = .next t) : core.run (a + b) s = core.run b t := by
  induction a generalizing s with
  | zero => cases h; simp
  | succ a ih =>
    by_cases hx : ∃ u, step s = .next u
    · obtain ⟨u, hu⟩ := hx
      rw [Nat.add_right_comm, run_succ_of_next _ hu]
      rw [run_succ_of_next _ hu] at h
      exact ih h
    · exact absurd h (run_succ_of_stop a (fun u hu => hx ⟨u, hu⟩) t)

/-- A poll while BUSY is 1: the loop goes on. -/
theorem step_wait_busy {s : State} {rest : List HostOp} (h : s.script = .wait :: rest) (hr : s.inReset = false)
    (hb : (statusWord s).getLsbD 0 = true) (hd : s.delay ≠ 0) : step s = .next (elapse s) := by
  rw [step_of_hostTurn (op := .wait) (rest := rest) ⟨h, hr, .inr hd⟩]
  show hostPoll s = _
  rw [hostPoll_of_ready hr, show classify 0x008 = .status by decide]
  show (if (statusWord s).getLsbD 0 then _ else _) = _
  rw [hb]; rfl

/-- A poll while BUSY is 0: the loop ends. -/
theorem step_wait_idle {s : State} {rest : List HostOp} (h : s.script = .wait :: rest) (hr : s.inReset = false)
    (hb : (statusWord s).getLsbD 0 = false) (hp : s.pend = none) : step s = .next (advance s) := by
  rw [step_of_hostTurn (op := .wait) (rest := rest) ⟨h, hr, .inl hp⟩]
  show hostPoll s = _
  rw [hostPoll_of_ready hr, show classify 0x008 = .status by decide]
  show (if (statusWord s).getLsbD 0 then _ else _) = _
  rw [hb]; rfl

end Sys2Proof.Machine
end

