-- ==== Sys2Proof/Tests/Slice0.lean ====
section
/-! SUPPORT. The model's own tests, all expected values from spec/ (mostly 95_test_vectors.md, named in each docstring), and
for every obligation with hypotheses a witness that meets them. -/

namespace Sys2Proof.Machine

/-! ### Helpers -/

/-- The reset state with a script. -/
def stScript (p : List HostOp) : State := { State.reset with script := p }

/-- The reset state with a command in flight, `d` host accesses before its completion, and a script. -/
def stBusy (i : Instr) (d : Nat) (p : List HostOp) : State := { stScript p with pend := some i, delay := d }

/-- The reset state with RC at `n` and a script. -/
def stRc (n : Nat) (p : List HostOp) : State := { stScript p with rc := BitVec.ofNat 7 n }

/-- The padded "abc" block (V-S2). -/
def abcBlock : Words16 := #v[0x61626380, 0, 0, 0, 0, 0, 0, 0, 0, 0, 0, 0, 0, 0, 0, 0x00000018]

/-- The reset state with M holding the padded "abc" block. -/
def stAbc : State := { State.reset with m := abcBlock }

/-- What a step or a command leaves, if it goes on. -/
def after (o : Host.Outcome State Fault Refusal) : Option State :=
  match o with
  | .next t => some t
  | .fault _ => none
  | .refused _ => none

/-- What one host access leaves from `s`. -/
def hostAfter (s : State) (op : HostOp) : Option State := after (step { s with script := [op] })

/-- What one read observes. -/
def readsAs (s : State) (off : Offset) : Option (List Word) := (hostAfter s (opRd off)).map (·.observed)

/-- STATUS after one write. -/
def statusAfterWrite (s : State) (off : Offset) (x : Word) : Option Word := (hostAfter s (opWr off x)).map statusWord

/-- The hash states and working variables after each round, as the rules compute them. -/
def roundsFrom (h : Words8) (w : Words64) : Nat → Words8
  | 0 => h
  | n + 1 => if hn : n < 64 then roundFn (roundsFrom h w n) roundConstants[n] w[n] else roundsFrom h w n

/-! ### Well-formedness: an ill-formed term for each check -/

theorem test_word_with_reserved_bit_is_ill_formed :
    reservedBitsClear 0x00000100 = false ∧ opcodeAssigned 0x00000100 = true ∧
      commandWordWellFormed 0x00000100 = false := by decide

theorem test_word_with_reserved_opcode_is_ill_formed :
    reservedBitsClear 0x00000008 = true ∧ opcodeAssigned 0x00000008 = false ∧
      commandWordWellFormed 0x00000008 = false := by decide

theorem test_block_word_is_well_formed : commandWordWellFormed 0x00000007 = true ∧ Instr.block.wellFormed = true := by
  decide

theorem test_narrow_access_is_ill_formed :
    (HostOp.rd .w8 0x008).wellFormed = false ∧ (HostOp.wr .w64 0x040 0).wellFormed = false ∧
      scriptWellFormed [.wait, .rd .w16 0x080] = false ∧ scriptWellFormed [.wait, .rd .w32 0x080] = true := by decide

/-! ### Decoding: words written out bit by bit, RSV in [31:8] and OP in [7:0] (R48, R50) -/

theorem test_decode_nop : decode 0b000000000000000000000000_00000000 = .ok .nop := rfl

theorem test_decode_init : decode 0b000000000000000000000000_00000001 = .ok .init := rfl

theorem test_decode_expand : decode 0b000000000000000000000000_00000010 = .ok .expand := rfl

theorem test_decode_loadv : decode 0b000000000000000000000000_00000011 = .ok .loadv := rfl

theorem test_decode_round : decode 0b000000000000000000000000_00000100 = .ok .round := rfl

theorem test_decode_compress : decode 0b000000000000000000000000_00000101 = .ok .compress := rfl

theorem test_decode_accum : decode 0b000000000000000000000000_00000110 = .ok .accum := rfl

theorem test_decode_block : decode 0b000000000000000000000000_00000111 = .ok .block := rfl

/-- The highest reserved opcode, the lowest and the highest reserved bit (R52, section 2.6). -/
theorem test_decode_refuses_reserved_words :
    decode 0b000000000000000000000000_11111111 = .error .reservedOpcode ∧
    decode 0b000000000000000000000001_00000000 = .error .reservedBits ∧
    decode 0b100000000000000000000000_00000111 = .error .reservedBits := ⟨rfl, rfl, rfl⟩

theorem test_decode_table_word_reads_only_its_bits :
    decodeTableWord 32 0x00000005 = some .compress ∧ decodeTableWord 8 0x00000102 = some .expand ∧
    decodeTableWord 32 0x00000102 = none ∧ decodeTableWord 64 0x00000002 = none := by decide

/-! ### Primitives (section 2.1) -/

theorem test_rotr_by_one_and_thirty_one : rotr 0x00000001 1 = 0x80000000 ∧ rotr 0x00000001 31 = 0x00000002 := by decide

theorem test_sigma0_table :
    sigma0 0xFFFFFFFF = 0x1FFFFFFF ∧ sigma0 0x00000001 = 0x02004000 ∧ sigma0 0x12345678 = 0xE7FCE6EE := by decide

theorem test_sigma1_table :
    sigma1 0xFFFFFFFF = 0x003FFFFF ∧ sigma1 0x80000000 = 0x00205000 ∧ sigma1 0x12345678 = 0xA1F78649 := by decide

theorem test_big_sigma0_table : bigSigma0 0x80000000 = 0x20040200 ∧ bigSigma0 0x12345678 = 0x66146474 := by decide

theorem test_big_sigma1_table : bigSigma1 0x00000001 = 0x04200080 ∧ bigSigma1 0x12345678 = 0x3561ABDA := by decide

theorem test_ch_table :
    ch 0xF0F0F0F0 0x12345678 0x9ABCDEF0 = 0x1A3C5E70 ∧ ch 0x00000000 0x12345678 0x9ABCDEF0 = 0x9ABCDEF0 := by decide

theorem test_maj_table :
    maj 0xF0F0F0F0 0xFF00FF00 0xCCCCCCCC = 0xFCC0FCC0 ∧ maj 0x12345678 0x12345678 0x9ABCDEF0 = 0x12345678 := by decide

/-! ### The commands, at most two tests each -/

/-- V-N1. -/
theorem test_nop_clears_pend_only : after (step (stBusy .nop 0 [])) = some State.reset := by decide

/-- V-I2: INIT with ILL set; H was something else before. -/
theorem test_init_keeps_flags_and_loads_iv :
    (after (step { stBusy .init 0 [] with ill := true, h := Vector.replicate 8 0x00000001 })).map
      (fun t => (statusWord t, t.h[0], t.h[7])) = some (0x00000002, 0x6A09E667, 0x5BE0CD19) := by decide

/-- V-E1. -/
theorem test_expand_abc :
    (after (step { stAbc with pend := some .expand })).map (fun t => (t.w[15], t.w[16], t.w[17], t.w[18], t.w[63])) =
      some (0x00000018, 0x61626380, 0x000F0000, 0x7DA86405, 0x12B1EDEB) := by decide

/-- V-E5, where every term of the sum counts. -/
theorem test_expand_counting_block :
    (let w := expand #v[0, 1, 2, 3, 4, 5, 6, 7, 8, 9, 10, 11, 12, 13, 14, 15]
     (w[16], w[17], w[18], w[23])) = (0x02070009, 0x0406E00B, 0x6605E090, 0x2929F37F) := by decide

/-- R72: after INIT, LOADV gives V = IV; RC goes back to 0. -/
theorem test_loadv_after_partial_rounds :
    (after (step { stBusy .loadv 0 [] with rc := 5 })).map (fun t => (t.v[0], t.v[7], t.rc)) =
      some (0x6A09E667, 0x5BE0CD19, 0) := by decide

/-- V-C1. -/
theorem test_round_zero_of_abc :
    (after (exec .round { State.reset with v := initialHash, w := expand abcBlock })).map (fun t => (t.v, t.rc)) =
      some (#v[0x5D6AEBCD, 0x6A09E667, 0xBB67AE85, 0x3C6EF372, 0xFA2A4622, 0x510E527F, 0x9B05688C, 0x1F83D9AB], 1) := by
  decide

/-- V-C2, round 63: K[63] and W[63] on the row of round 62. -/
theorem test_round_sixty_three_of_abc :
    (after (exec .round { State.reset with
        v := #v[0xD39A2165, 0x04D24D6C, 0xB85E2CE9, 0xB6AE8FFF, 0xFB121210, 0x948D25B6, 0x961F4894, 0xB21BAD3D]
        w := (Vector.replicate 64 0).set 63 0x12B1EDEB, rc := 63 })).map (fun t => (t.v, t.rc)) =
      some (#v[0x506E3058, 0xD39A2165, 0x04D24D6C, 0xB85E2CE9, 0x5EF50F24, 0xFB121210, 0x948D25B6, 0x961F4894], 64) := by
  decide

/-- V-C5. -/
theorem test_compress_zero_schedule :
    (after (exec .compress State.reset)).map (fun t => (t.v, t.rc, t.h[0])) =
      some (#v[0x704CB257, 0x5C5205E4, 0x25C46427, 0xD24FC990, 0x3BD78212, 0x25CCF9B7, 0x9B7B203F, 0xBC56DCBF], 64,
        0x6A09E667) := by decide +kernel

/-- V-C7. -/
theorem test_compress_empty_block :
    (after (exec .compress { State.reset with
        w := expand #v[0x80000000, 0, 0, 0, 0, 0, 0, 0, 0, 0, 0, 0, 0, 0, 0, 0] })).map (·.v) =
      some #v[0x79A6DDDB, 0xDD946D8F, 0x5E8D0156, 0xF41FC3EA, 0xD69FEF65, 0xC9962AC0, 0x8511BF70, 0x1C71EB3C] := by
  decide +kernel

/-- V-A1, with and without a dropped carry. -/
theorem test_accum_wraps_word_by_word :
    (after (exec .accum { State.reset with
        v := #v[0x704CB257, 0x5C5205E4, 0x25C46427, 0xD24FC990, 0x3BD78212, 0x25CCF9B7, 0x9B7B203F, 0xBC56DCBF]
        rc := 64 })).map (fun t => (t.h, t.rc)) =
      some (#v[0xDA5698BE, 0x17B9B469, 0x62335799, 0x779FBECA, 0x8CE5D491, 0xC0D26243, 0xBAFEF9EA, 0x1837A9D8], 0) := by
  decide +kernel

/-- V-A4, V-S2. -/
theorem test_block_abc :
    (after (step { stAbc with pend := some .block })).map (fun t => (t.h, t.v[0], t.w[63], statusWord t)) =
      some (#v[0xBA7816BF, 0x8F01CFEA, 0x414140DE, 0x5DAE2223, 0xB00361A3, 0x96177A9C, 0xB410FF61, 0xF20015AD],
        0x506E3058, 0x12B1EDEB, 0) := by decide +kernel

/-- V-A5: the second block of the 56-byte message, from H after the first. -/
theorem test_block_chains :
    (after (exec .block { State.reset with
        h := #v[0x85E655D6, 0x417A1795, 0x3363376A, 0x624CDE5C, 0x76E09589, 0xCAC5F811, 0xCC4B32C1, 0xF20E533A]
        m := #v[0, 0, 0, 0, 0, 0, 0, 0, 0, 0, 0, 0, 0, 0, 0, 0x000001C0] })).map (·.h) =
      some #v[0x248D6A61, 0xD20638B8, 0xE5C02693, 0x0C3E6039, 0xA33CE459, 0x64FF2167, 0xF6ECEDD4, 0x19DB06C1] := by
  decide +kernel

/-- A placed command word is what the very next step runs, whatever stands in the script. -/
theorem test_placed_word_runs_at_the_next_step :
    (after (step (State.reset.withFetchWord 32 0x00000005))).map (fun t => (t.rc, t.busy)) = some (64, false) ∧
    (after (step ((stBusy .nop 3 [.assertReset, .wait]).withFetchWord 32 0x00000001))).map
      (fun t => (t.h[0], t.script, t.busy)) = some (0x6A09E667, [.wait], false) := by decide +kernel

/-! ### The register interface (section 2.6) -/

theorem test_reads_of_constants_and_gaps :
    readsAs State.reset 0x000 = some [0x53323536] ∧ readsAs State.reset 0x004 = some [0] ∧
    readsAs State.reset 0x00C = some [0] ∧ readsAs State.reset 0x041 = some [0] ∧
    readsAs (stBusy .block 1 []) 0x200 = some [0x428A2F98] ∧ readsAs State.reset 0x2FC = some [0xC67178F2] ∧
    readsAs State.reset 0x080 = some [0x6A09E667] ∧ readsAs State.reset 0x3FC = some [0] := by decide

theorem test_reads_while_busy_are_draws :
    readsAs (stBusy .block 1 []) 0x080 = some [Config.draw 0] ∧
    readsAs { stBusy .block 1 [] with draws := 4 } 0x1FC = some [Config.draw 4] := ⟨rfl, rfl⟩

theorem test_rejected_command_words_raise_ill :
    statusAfterWrite State.reset 0x004 0x00000100 = some 0x00000002 ∧
    statusAfterWrite State.reset 0x004 0x000000FF = some 0x00000002 ∧
    statusAfterWrite State.reset 0x004 0x80000007 = some 0x00000002 ∧
    statusAfterWrite State.reset 0x004 0x00000006 = some 0x00000002 ∧
    statusAfterWrite (stRc 64 []) 0x004 0x00000004 = some 0x00004002 ∧
    statusAfterWrite (stRc 1 []) 0x004 0x00000006 = some 0x00000102 := by decide

theorem test_accepted_command_word_sets_busy :
    (hostAfter (stRc 63 []) (opWr 0x004 0x00000004)).map (fun t => (t.pend, statusWord t)) =
      some (some .round, 0x00003F01) := rfl

theorem test_writes_while_busy_raise_ovr :
    statusAfterWrite (stBusy .block 1 []) 0x004 0x00000008 = some 0x00000005 ∧
    statusAfterWrite (stBusy .block 1 []) 0x004 0x00000001 = some 0x00000005 ∧
    (hostAfter (stBusy .block 1 []) (opWr 0x040 0x12345678)).map (fun t => (t.m[0], t.ovr)) = some (0, true) := by decide

theorem test_idle_write_to_m_is_stored :
    (hostAfter State.reset (opWr 0x040 0x12345678)).map (fun t => (t.m[0], statusWord t)) = some (0x12345678, 0) ∧
    (hostAfter State.reset (opWr 0x07C 0x00000018)).map (fun t => (t.m[15], t.m[14])) = some (0x00000018, 0) := by decide

theorem test_writes_to_bad_targets_raise_accerr :
    statusAfterWrite State.reset 0x080 0x00000001 = some 0x00000008 ∧
    statusAfterWrite State.reset 0x100 0x00000001 = some 0x00000008 ∧
    statusAfterWrite State.reset 0x000 0x00000000 = some 0x00000008 ∧
    statusAfterWrite State.reset 0x041 0x00000005 = some 0x00000008 ∧
    statusAfterWrite State.reset 0x3FC 0x00000000 = some 0x00000008 ∧
    statusAfterWrite (stBusy .block 1 []) 0x080 0x00000001 = some 0x00000009 := by decide

theorem test_status_write_clears_chosen_flags :
    statusAfterWrite { stRc 1 [] with ill := true, ovr := true, accerr := true } 0x008 0x0000000E = some 0x00000100 ∧
    statusAfterWrite { stScript [] with ill := true, ovr := true } 0x008 0x00000004 = some 0x00000002 ∧
    statusAfterWrite { stBusy .block 1 [] with ill := true, ovr := true, accerr := true } 0x008 0xFFFFFFFF =
      some 0x00000001 := by decide

/-! ### The host's duties (45_host_digest.md R82 to R94) -/

/-- The table of R83. -/
theorem test_padding_zeros :
    [0, 3, 55, 56, 57, 63, 64, 65, 119, 120].map padZeros = [55, 52, 0, 63, 62, 56, 55, 54, 0, 63] := by decide

/-- V-S6, 56 bytes of 0x61: the blocks, the end of the first and the second. -/
theorem test_padding_of_fifty_six_bytes :
    (let b := blocksOf (padBytes (List.replicate 56 0x61))
     (b.length, b[0]?.map (fun x => (x[13], x[14], x[15])), b[1]?.map (fun x => (x[0], x[14], x[15])))) =
      (2, some (0x61616161, 0x80000000, 0x00000000), some (0x00000000, 0x00000000, 0x000001C0)) := by decide +kernel

/-- V-S2: UTF-8, padding, one block and the hexadecimal form. -/
theorem test_hexdigest_abc :
    (hexdigestText "abc").toOption = some "ba7816bf8f01cfea414140de5dae2223b00361a396177a9cb410ff61f20015ad" := by
  decide +kernel

/-- V-S1: the empty message. -/
theorem test_hexdigest_empty :
    (hexdigestText "").toOption = some "e3b0c44298fc1c149afbf4c8996fb92427ae41e4649b934ca495991b7852b855" := by
  decide +kernel

/-- R94: a text outside ASCII is its UTF-8 bytes. -/
theorem test_text_bytes_are_utf8 : textBytes "a\u20ac" = [0x61, 0xE2, 0x82, 0xAC] := by decide

/-- P1 (section 3): the accesses for "abc" up to the read of STATUS, in order; and R88's EXPAND, COMPRESS, ACCUM. -/
theorem test_digest_program_abc :
    (digestProgram (fun _ => .block) [0x61, 0x62, 0x63]).toOption.map (fun p => (p.length, p.take 5, p.drop 19)) =
      some (23, [.wait, .wr .w32 0x008 0x0000000E, .wr .w32 0x004 0x00000001, .wait, .wr .w32 0x040 0x61626380],
        [.wr .w32 0x07C 0x00000018, .wr .w32 0x004 0x00000007, .wait, .rd .w32 0x008]) ∧
    (digestProgram (fun _ => .stages) [0x61, 0x62, 0x63]).toOption.map (fun p => p.drop 20) =
      some [.wr .w32 0x004 0x00000002, .wait, .wr .w32 0x004 0x00000005, .wait, .wr .w32 0x004 0x00000006, .wait,
        .rd .w32 0x008] := by
  decide +kernel

/-- R88: with STATUS[3:1] at 0 the host reads H0..H7, whatever RC and BUSY; with any of them set it reads nothing. -/
theorem test_digest_continue :
    (digestContinue 0x00004001).toOption = some [.rd .w32 0x080, .rd .w32 0x084, .rd .w32 0x088, .rd .w32 0x08C,
      .rd .w32 0x090, .rd .w32 0x094, .rd .w32 0x098, .rd .w32 0x09C] ∧
    (digestContinue 0x00000002).toOption = none ∧ (digestContinue 0x00000004).toOption = none ∧
    (digestContinue 0x00000008).toOption = none := by decide

/-! ### The platform (R96) -/

/-- Two instances, the second held by context 7. -/
def twoSlots : Platform :=
  { slots := [{ base := 0x1000, hold := none, engine := stBusy .nop 0 [] },
      { base := 0x1400, hold := some { ctx := 7, phase := .held }, engine := State.reset }] }

/-- What an operation on a platform leaves, if it goes on. -/
def platformAfter (o : Host.Outcome Platform Fault Refusal) : Option Platform :=
  match o with
  | .next q => some q
  | .fault _ => none
  | .refused _ => none

/-- A `clr` begins exclusive use (R96): then another context is refused, and the digest's context may not give the
instance up; after STATUS and H[7] are read it may. -/
theorem test_clr_begins_exclusive_use :
    ((platformAfter (twoSlots.submitAll 3 0 [.wait, opClr])).bind
      (fun q => platformAfter (q.submitOp 4 0 .wait))).isNone ∧
    ((platformAfter (twoSlots.submitAll 3 0 [.wait, opClr])).bind (fun q => platformAfter (q.release 3 0))).isNone ∧
    ((platformAfter (twoSlots.submitAll 3 0 ([.wait, opClr, opRd offStatus] ++ opRdh))).bind
      (fun q => platformAfter (q.release 3 0))).isSome := by decide

/-- One instance that context 3 holds, whose read of STATUS has observed `status`. -/
def checkedSlot (status : Word) : Slot :=
  { base := 0, hold := some { ctx := 3, phase := .checked }, engine := { State.reset with observed := [status] } }

/-- R88, R96: after EngineError the context may give the instance up, and with no flag set it still has H to read. -/
theorem test_engine_error_ends_exclusive_use :
    (platformAfter (({ slots := [checkedSlot 0x00000004] } : Platform).release 3 0)).isSome ∧
    (platformAfter (({ slots := [checkedSlot 0x00004000] } : Platform).release 3 0)).isNone := by decide

/-! ### Witnesses: states and operands that meet the hypotheses of the obligations -/

theorem witness_StepRunsThePendingCommand :
    (stBusy .block 0 [.wait]).engineTurn .block ∧ (stBusy .block 5 []).engineTurn .block ∧
    (∃ t, exec .block (stBusy .block 0 [.wait]) = .next t) ∧ decodeTableWord 32 0x00000007 = some .block ∧
    Instr.block.wellFormed = true ∧ (∃ t, exec .block (State.reset.withFetchWord 32 0x00000007) = .next t) :=
  ⟨by decide, by decide, ⟨_, rfl⟩, by decide, rfl, ⟨_, rfl⟩⟩

/-- Legal: ROUND at RC = 63, ACCUM at RC = 64, NOP. Not legal: each reason, at its boundary. -/
theorem witness_CommandWriteIssuesExactlyLegalWords :
    (let s := stRc 63 [.wr .w32 0x004 0x00000004]
     s.hostTurn (.wr .w32 0x004 0x00000004) [] ∧ s.pend = none ∧ s.rc.toNat ≤ 64 ∧ 0x00000004 = encode .round ∧
       ¬(Instr.round = .round ∧ s.rc.toNat = 64) ∧ ¬(Instr.round = .accum ∧ s.rc.toNat ≠ 64)) ∧
    (let s := stRc 64 [.wr .w32 0x004 0x00000006]
     s.hostTurn (.wr .w32 0x004 0x00000006) [] ∧ s.pend = none ∧ s.rc.toNat ≤ 64 ∧ 0x00000006 = encode .accum ∧
       ¬(Instr.accum = .round ∧ s.rc.toNat = 64) ∧ ¬(Instr.accum = .accum ∧ s.rc.toNat ≠ 64)) ∧
    (0x00000100 : Word).extractLsb' 8 24 ≠ 0 ∧ (0x80000007 : Word).extractLsb' 8 24 ≠ 0 ∧
    0x08 ≤ ((0x00000008 : Word).extractLsb' 0 8).toNat ∧ 0x08 ≤ ((0x000000FF : Word).extractLsb' 0 8).toNat ∧
    (stRc 64 [.wr .w32 0x004 0x00000004]).rc.toNat = 64 ∧
    (stRc 63 [.wr .w32 0x004 0x00000006]).rc.toNat ≠ 64 := by decide

theorem witness_RotrIsTheRightRotation : 1 ≤ 1 ∧ 1 ≤ 31 ∧ 31 ≤ 31 ∧ 31 < 32 ∧ 0 < 32 := by decide

/-- V-C1: T1 and T2 of round 0 of "abc". -/
theorem witness_RoundFollowsItsEquations :
    (let v := initialHash
     (0x54DA50E8 : Word).toNat =
       (v[7].toNat + (bigSigma1 v[4]).toNat + (ch v[4] v[5] v[6]).toNat + (0x428A2F98 : Word).toNat +
         (0x61626380 : Word).toNat) % 2 ^ 32 ∧
     (0x08909AE5 : Word).toNat = ((bigSigma0 v[0]).toNat + (maj v[0] v[1] v[2]).toNat) % 2 ^ 32) := by decide

theorem witness_NopChangesNothing : (stBusy .nop 0 [.wait]).engineTurn .nop := by decide

/-- After reset M is all zero. -/
theorem witness_ExpandBuildsTheScheduleOfM : ∀ i (h : i < 16), State.reset.m[i] = 0 := by decide

theorem witness_ExpandLaws :
    0 < 16 ∧ 15 < 16 ∧ (16 ≤ 16 ∧ 63 < 64) ∧ State.reset.m = (stRc 7 [.wait]).m ∧ (∃ t, exec .expand State.reset = .next t) ∧
    ∃ t, exec .expand (stRc 7 [.wait]) = .next t := 
  ⟨by decide, by decide, by decide, rfl, ⟨_, rfl⟩, ⟨_, rfl⟩⟩

theorem witness_RoundPerformsRoundRc :
    (stRc 0 []).rc.toNat = 0 ∧ (stRc 63 []).rc.toNat = 63 ∧ (stRc 64 []).rc.toNat = 64 := by decide

theorem witness_CompressRunsSixtyFourRounds (h : Words8) (w : Words64) :
    ∃ vs : Nat → Words8, vs 0 = h ∧ ∀ n (_ : n < 64), vs (n + 1) = roundFn (vs n) roundConstants[n] w[n] :=
  ⟨roundsFrom h w, rfl, fun n hn => by simp [roundsFrom, hn]⟩

theorem witness_AccumFoldsVIntoH :
    (stRc 64 []).rc.toNat = 64 ∧ (stRc 0 []).rc.toNat ≠ 64 ∧ (stRc 63 []).rc.toNat ≠ 64 := by decide

theorem witness_BlockProcessesOneBlock (h : Words8) (m : Words16) :
    ∃ vs : Nat → Words8, vs 0 = h ∧
      ∀ n (_ : n < 64), vs (n + 1) = roundFn (vs n) roundConstants[n] (expand m)[n] :=
  witness_CompressRunsSixtyFourRounds h (expand m)

theorem witness_CommandsWriteOnlyTheirRegisters :
    (∃ t, exec .round (stRc 63 []) = .next t) ∧ guardOk .round (stRc 63 []).rc = true ∧
    (∃ t, exec .accum (stRc 63 []) = .next t) ∧ ∃ t, exec .expand (stRc 0 []) = .next t :=
  ⟨⟨_, rfl⟩, by decide, ⟨_, rfl⟩, ⟨_, rfl⟩⟩

theorem witness_RoundCounterIsSetByItsCommands :
    ((stRc 0 []).rc.toNat < 64 ∧ (stRc 63 []).rc.toNat < 64) ∧
    ((∃ t, exec .round (stRc 63 []) = .next t) ∧ guardOk .round (stRc 63 []).rc = true) ∧
    ((∃ t, exec .accum (stRc 64 []) = .next t) ∧ guardOk .accum (stRc 64 []).rc = true) ∧
    ((stRc 9 [.assertReset]).script.head? = some .assertReset ∧ ∃ t, step (stRc 9 [.assertReset]) = .next t) ∧
    ((stRc 64 []).rc.toNat ≤ 64 ∧ ∃ t, step (stRc 64 []) = .next t) :=
  ⟨by decide, ⟨⟨_, rfl⟩, by decide⟩, ⟨⟨_, rfl⟩, by decide⟩, ⟨rfl, ⟨_, rfl⟩⟩, by decide, ⟨_, rfl⟩⟩

theorem witness_BlocksChainTheHashState :
    (∀ p ∈ [([Instr.nop, .compress], abcBlock), ([], abcBlock)], ∀ i ∈ p.1, i ≠ .init ∧ i ≠ .accum ∧ i ≠ .block) ∧
    ∃ hs : Nat → Words8, hs 0 = initialHash ∧
      ∀ n (h : n < [abcBlock, abcBlock].length),
        hs (n + 1) = accumulate (hs n) (compress (hs n) (expand [abcBlock, abcBlock][n])) := by
  refine ⟨by simp, fun n => hashBlocks ([abcBlock, abcBlock].take n), rfl, ?_⟩
  intro n h
  simp only [List.length_cons, List.length_nil] at h
  obtain rfl | rfl : n = 0 ∨ n = 1 := by omega
  · rfl
  · rfl

theorem witness_InitForgetsTheHistory :
    (∃ t, execAll [.init, .round] (stRc 5 []) = .next t) ∧
    ∃ t, execAll [.init, .round] State.reset = .next t := ⟨⟨_, rfl⟩, ⟨_, rfl⟩⟩

/-- Every clause has an offset: misaligned, each named register, the first and last of each array, each gap's ends. -/
theorem witness_IdleReadObservesTheRegister :
    (∀ off ∈ [0x001, 0x000, 0x004, 0x008, 0x040, 0x07C, 0x080, 0x09C, 0x0A0, 0x0BC, 0x100, 0x1FC, 0x200, 0x2FC, 0x00C,
        0x03C, 0x0C0, 0x0FC, 0x300, 0x3FC],
      (stScript [.rd .w32 off, .wait]).hostTurn (.rd .w32 off) [.wait] ∧ (stScript [.rd .w32 off, .wait]).pend = none) ∧
    (0x07C : Offset).toNat = 0x040 + 4 * 15 ∧ (0x09C : Offset).toNat = 0x080 + 4 * 7 ∧
    (0x0BC : Offset).toNat = 0x0A0 + 4 * 7 ∧ (0x1FC : Offset).toNat = 0x100 + 4 * 63 ∧
    (0x2FC : Offset).toNat = 0x200 + 4 * 63 := by decide +kernel

theorem witness_BusyReadOfDataIsUnspecified :
    ∀ off ∈ [0x040, 0x0BC, 0x100, 0x1FC, 0x03C, 0x0C0, 0x0FC, 0x200, 0x041, 0x008],
      (stBusy .block 1 [.rd .w32 off]).hostTurn (.rd .w32 off) [] ∧
      (stBusy .block 1 [.rd .w32 off]).pend = some .block := by decide

theorem witness_ReadsChangeNoState :
    ((stBusy .block 1 [.rd .w32 0x080]).hostTurn (.rd .w32 0x080) [] ∧
      ∃ t, step (stBusy .block 1 [.rd .w32 0x080]) = .next t) ∧
    ((stScript [.expect 0x000 0x53323536]).hostTurn (.expect 0x000 0x53323536) [] ∧
      ∃ t, step (stScript [.expect 0x000 0x53323536]) = .next t) ∧
    ((stBusy .block 1 [.wait]).hostTurn .wait [] ∧ ∃ t, step (stBusy .block 1 [.wait]) = .next t) :=
  ⟨⟨by decide, ⟨_, rfl⟩⟩, ⟨by decide, ⟨_, rfl⟩⟩, ⟨by decide, ⟨_, rfl⟩⟩⟩

/-- Misaligned, ID, both ends of the first gap, H0 and the last offset; idle and BUSY. -/
theorem witness_WriteToBadTargetRaisesAccerrOnly :
    ∀ off ∈ [0x3FF, 0x000, 0x00C, 0x03C, 0x080, 0x3FC],
      (stScript [.wr .w32 off 1]).hostTurn (.wr .w32 off 1) [] ∧
      (stBusy .nop 1 [.wr .w32 off 1]).hostTurn (.wr .w32 off 1) [] ∧
      ((off : Offset).toNat % 4 ≠ 0 ∨ off.toNat = 0x000 ∨ (0x00C ≤ off.toNat ∧ off.toNat ≤ 0x03C) ∨
        0x080 ≤ off.toNat) := by decide

theorem witness_BusyWriteToCmdOrMRaisesOvrOnly :
    ∀ off ∈ [0x004, 0x040, 0x07C],
      (stBusy .block 1 [.wr .w32 off 1]).hostTurn (.wr .w32 off 1) [] ∧
      ((off : Offset).toNat = 0x004 ∨ ∃ j : Fin 16, off.toNat = 0x040 + 4 * j.val) := by decide

theorem witness_IdleWriteToMStoresTheWord :
    (stScript [.wr .w32 0x040 5]).hostTurn (.wr .w32 0x040 5) [] ∧ (0x040 : Offset).toNat = 0x040 + 4 * (0 : Fin 16).val ∧
    (stScript [.wr .w32 0x07C 5]).hostTurn (.wr .w32 0x07C 5) [] ∧
    (0x07C : Offset).toNat = 0x040 + 4 * (15 : Fin 16).val ∧ (stScript [.wr .w32 0x07C 5]).pend = none := by decide

theorem witness_StatusWriteClearsChosenFlags :
    (stScript [.wr .w32 0x008 0xE]).hostTurn (.wr .w32 0x008 0xE) [] ∧
    (stBusy .block 2 [.wr .w32 0x008 0]).hostTurn (.wr .w32 0x008 0) [] := by decide

theorem witness_ReservedCommandWordRaisesIllOnly :
    ((stScript [.wr .w32 0x004 0x80000000]).hostTurn (.wr .w32 0x004 0x80000000) [] ∧
      (stScript [.wr .w32 0x004 0x80000000]).pend = none) ∧
    (0x80000000 : Word).extractLsb' 8 24 ≠ 0 ∧ (0x00000100 : Word).extractLsb' 8 24 ≠ 0 ∧
    ((0x00000008 : Word).extractLsb' 0 8).toNat = 0x08 ∧ ((0x000000FF : Word).extractLsb' 0 8).toNat = 0xFF := by decide

theorem witness_GuardedCommandWriteRaisesIllOnly :
    ((stRc 64 [.wr .w32 0x004 (encode .round)]).hostTurn (.wr .w32 0x004 (encode .round)) [] ∧
      (stRc 64 [.wr .w32 0x004 (encode .round)]).rc.toNat = 64) ∧
    ((stRc 63 [.wr .w32 0x004 (encode .accum)]).hostTurn (.wr .w32 0x004 (encode .accum)) [] ∧
      (stRc 63 [.wr .w32 0x004 (encode .accum)]).rc.toNat ≠ 64) := by decide

/-- A write that raises each of the three flags. -/
theorem witness_OneWriteRaisesAtMostOneFlag :
    ((stScript [.wr .w32 0x004 8]).hostTurn (.wr .w32 0x004 8) [] ∧
      ∃ t, step (stScript [.wr .w32 0x004 8]) = .next t ∧ (stScript [.wr .w32 0x004 8]).ill = false ∧ t.ill = true) ∧
    ((stBusy .nop 1 [.wr .w32 0x004 8]).hostTurn (.wr .w32 0x004 8) [] ∧
      ∃ t, step (stBusy .nop 1 [.wr .w32 0x004 8]) = .next t ∧ (stBusy .nop 1 [.wr .w32 0x004 8]).ovr = false ∧
        t.ovr = true) ∧
    ((stScript [.wr .w32 0x080 8]).hostTurn (.wr .w32 0x080 8) [] ∧
      ∃ t, step (stScript [.wr .w32 0x080 8]) = .next t ∧ (stScript [.wr .w32 0x080 8]).accerr = false ∧
        t.accerr = true) :=
  ⟨⟨by decide, _, rfl, rfl, rfl⟩, ⟨by decide, _, rfl, rfl, rfl⟩, ⟨by decide, _, rfl, rfl, rfl⟩⟩

theorem witness_AccessesOutsideTheInterfaceAreRefused :
    (Width.w8 ≠ .w32 ∧ (stScript [.rd .w8 0x000]).hostTurn (.rd .w8 0x000) []) ∧
    (Width.w64 ≠ .w32 ∧ (stBusy .nop 1 [.wr .w64 0x040 0]).hostTurn (.wr .w64 0x040 0) []) ∧
    (({ stScript [.wait] with inReset := true } : State).inReset = true ∧ HostOp.wait.isReset = false) := by decide

theorem witness_ResetDiscardsThePendingCommand :
    (stBusy .block 0 [.assertReset, .wait]).script = .assertReset :: [.wait] ∧
    ({ stScript [.releaseReset] with inReset := true } : State).script = .releaseReset :: [] ∧
    ({ stScript [.releaseReset] with inReset := true } : State).inReset = true := by decide

/-- A state with a pending command, one with reset asserted, and one that writes a command. -/
theorem witness_EveryStepKeepsTheInvariant :
    ((stBusy .block 0 []).Inv ∧ ∃ t, step (stBusy .block 0 []) = .next t) ∧
    (({ stScript [.releaseReset] with inReset := true } : State).Inv ∧
      ∃ t, step { stScript [.releaseReset] with inReset := true } = .next t) ∧
    ((stScript [.wr .w32 0x004 7]).Inv ∧ ∃ t, step (stScript [.wr .w32 0x004 7]) = .next t) :=
  ⟨⟨by decide, ⟨_, rfl⟩⟩, ⟨by decide, ⟨_, rfl⟩⟩, ⟨by decide, ⟨_, rfl⟩⟩⟩

theorem witness_FlagsAreStickyAndBlockNothing :
    (∃ t, step { stBusy .init 0 [.wr .w32 0x040 1] with ill := true } = .next t) ∧
    (stBusy .init 0 [.wr .w32 0x040 1]).script = .wr .w32 0x040 1 :: [] ∧
    (stBusy .init 0 [.wr .w32 0x040 1]).Inv ∧ (stBusy .init 0 [.wr .w32 0x040 1]).engineTurn .init :=
  ⟨⟨_, rfl⟩, rfl, by decide, by decide⟩

theorem witness_HostCannotDisturbACommandInFlight :
    (stBusy .expand 1 [.wr .w32 0x040 1]).pend = some .expand ∧
    (stBusy .expand 1 [.wr .w32 0x040 1]).hostTurn (.wr .w32 0x040 1) [] ∧ (HostOp.wr .w32 0x040 1).isReset = false ∧
    ∃ t, step (stBusy .expand 1 [.wr .w32 0x040 1]) = .next t := ⟨rfl, by decide, rfl, ⟨_, rfl⟩⟩

/-- A step that changes H, V, W and one that changes M. -/
theorem witness_OnlyTheirWritersChangeTheRegisters :
    (∃ t, step (stScript [.wr .w32 0x040 1]) = .next t ∧ t.m ≠ (stScript [.wr .w32 0x040 1]).m) ∧
    ¬(stScript [.wr .w32 0x040 1]).resetEvent ∧ ¬(stScript [.releaseReset]).resetEvent ∧
    (∃ t, step (stBusy .loadv 0 []) = .next t ∧ t.v ≠ (stBusy .loadv 0 []).v) :=
  ⟨⟨_, rfl, by decide⟩, by decide, by decide, ⟨_, rfl, by decide⟩⟩

theorem witness_IdleEngineHoldsItsState :
    (stScript []).ended ∧ (stScript [.rd .w32 0x080]).pend = none ∧
    (stScript [.rd .w32 0x080]).script = .rd .w32 0x080 :: [] ∧ (HostOp.rd .w32 0x080).isReset = false ∧
    (∀ width off x, HostOp.rd .w32 0x080 ≠ .wr width off x) ∧ ∃ t, step (stScript [.rd .w32 0x080]) = .next t :=
  ⟨by decide, rfl, rfl, rfl, by simp, ⟨_, rfl⟩⟩

theorem witness_EveryIssuedCommandCompletes :
    (stBusy .block 3 [.wait]).pend = some .block ∧ (stBusy .block 3 [.wait]).inReset = false ∧
    (stBusy .block 3 [.wait]).script = .wait :: [] := by decide

theorem witness_WaitShowsTheWholeResult :
    (stBusy .block 3 [.wait]).script = .wait :: [] ∧ (stBusy .block 3 [.wait]).inReset = false ∧
    (stBusy .block 3 [.wait]).pend = some .block ∧ ∃ u, exec .block (stBusy .block 3 [.wait]) = .next u :=
  ⟨rfl, rfl, rfl, ⟨_, rfl⟩⟩

theorem witness_BothOrdersOfCompletionAndWrite :
    (stBusy .block 0 [.wr .w32 0x07C 1]).pend = some .block ∧ (stBusy .block 0 [.wr .w32 0x07C 1]).inReset = false ∧
    (stBusy .block 0 [.wr .w32 0x07C 1]).script = [.wr .w32 0x07C 1] ∧
    (0x07C : Offset).toNat = 0x040 + 4 * (15 : Fin 16).val := by decide

/-- The hypotheses of the digest's clause are met at its first access within exclusive use and at its last. -/
theorem witness_InstancesAreIndependent :
    (∃ q, twoSlots.stepAt 0 = .next q) ∧ (∃ sl, twoSlots.slots[0]? = some sl ∧ sl.hold = none) ∧
    (∃ sl, twoSlots.slots[1]? = some sl ∧ sl.hold = some { ctx := 7, phase := .held }) ∧
    ∃ prog rest, digestProgram (fun _ => .stages) [0x61, 0x62, 0x63] = .ok prog ∧
      prog ++ opRdh = [.wait, opClr] ++ rest ∧ opClr ∈ [HostOp.wait, opClr] ∧ rest ≠ [] ∧
      prog ++ opRdh = (prog ++ opRdh) ++ [] ∧ opClr ∈ prog ++ opRdh := by
  refine ⟨⟨_, rfl⟩, ⟨_, rfl, rfl⟩, ⟨_, rfl, rfl⟩, _, _, digestProgram_of_lt _ (by decide), rfl, ?_, ?_, ?_, ?_⟩ <;> simp

/-- The last offset of a window, the addresses around the windows, an access by another context and by the holder. -/
theorem witness_AddressesReachTheirInstance :
    twoSlots.wf = true ∧ (∃ sl, twoSlots.slots[1]? = some sl ∧ sl.hold = some { ctx := 7, phase := .held }) ∧
    0x3FF < 0x400 ∧ (7 : Nat) ≠ 3 ∧
    (∀ sl ∈ twoSlots.slots, 0x0FFF < sl.base ∨ sl.base + 0x400 ≤ 0x0FFF) ∧
    (∀ sl ∈ twoSlots.slots, 0x1800 < sl.base ∨ sl.base + 0x400 ≤ 0x1800) ∧
    (∃ sl, twoSlots.slots[0]? = some sl ∧ ∀ hd, sl.hold = some hd → hd.ctx = 3) :=
  ⟨by decide, ⟨_, rfl, rfl⟩, by decide, by decide, by decide, by decide, ⟨_, rfl, by decide⟩⟩

theorem witness_PaddingFillsWholeBlocks : (0 + 1 + padZeros 0) % 64 = 56 ∧ (56 + 1 + padZeros 56) % 64 = 56 := by decide

theorem witness_PaddingEndsWithTheBitLength : ([0x61, 0x62, 0x63] : List Byte).length < 2 ^ 61 := by decide

theorem witness_InputTooLargeIsSignalled :
    (∃ msg : List Byte, 2 ^ 64 ≤ 8 * msg.length) ∧ 8 * ([0x61] : List Byte).length < 2 ^ 64 := by
  refine ⟨⟨List.replicate (2 ^ 61) 0, ?_⟩, by decide⟩
  rw [List.length_replicate]
  omega

theorem witness_DigestIsThirtyTwoBytes : ∃ d, digest [0x61, 0x62, 0x63] = .ok d := ⟨_, rfl⟩

/-- Even with a command in flight and a flag set. -/
theorem witness_HostProcedureComputesTheDigest :
    (∃ (s : State) (p : List HostOp), digestProgram (fun _ => .stages) [0x61, 0x62, 0x63] = .ok p ∧ s.inReset = false ∧
      s.script = p ∧ s.pend = some .block ∧ s.ill = true) ∧
    (∃ hs : Nat → Words8, hs 0 = initialHash ∧ ∀ b, b < blockCount (padBytes [0x61, 0x62, 0x63]) →
      hs (b + 1) = accumulate (hs b) (compress (hs b) (expand (blockWords (padBytes [0x61, 0x62, 0x63]) b)))) ∧
    64 * 0 + 64 ≤ (padBytes [0x61, 0x62, 0x63]).length ∧
    ((0x00000002 : Word).getLsbD 1 = true ∧ (0x00000004 : Word).getLsbD 2 = true ∧ (0x00000008 : Word).getLsbD 3 = true) := by
  refine ⟨⟨{ (stBusy .block 3 _) with ill := true }, _, digestProgram_of_lt _ (by decide), rfl, rfl, rfl, rfl⟩,
    ⟨fun n => n.rec initialHash fun b h => hashBlock h (blockWords (padBytes [0x61, 0x62, 0x63]) b), rfl, fun b _ => rfl⟩,
    by decide, by decide⟩

end Sys2Proof.Machine
end

section
/-! The host's big-endian conversions `BE32` and `BYTES32` (00_scope.md R11): each is compared with the other through the
value of its result, a number in base 256. -/

namespace Sys2Proof.Machine

/-- The formula of R11 stays below `2^32`, so no byte is lost in the word. -/
@[simp] theorem be32_toNat (b0 b1 b2 b3 : Byte) : (be32 b0 b1 b2 b3).toNat =
    b0.toNat * 2 ^ 24 + b1.toNat * 2 ^ 16 + b2.toNat * 2 ^ 8 + b3.toNat := by
  have h0 := b0.isLt
  have h1 := b1.isLt
  have h2 := b2.isLt
  have h3 := b3.isLt
  exact (BitVec.toNat_ofNat ..).trans (Nat.mod_eq_of_lt (by omega))

/-- A byte taken out of a word is a digit of the word's value in base 256 when `n` is a multiple of 8. -/
theorem extractByte_toNat (x : Word) (n : Nat) : (x.extractLsb' n 8).toNat = x.toNat / 2 ^ n % 2 ^ 8 := by
  rw [BitVec.extractLsb'_toNat, Nat.shiftRight_eq_div_pow]

/-- The four bytes are the digits of the word's value, and the digits of `BE32`'s value are its four bytes. -/
@[simp] theorem bytes32_be32 (b0 b1 b2 b3 : Byte) : bytes32 (be32 b0 b1 b2 b3) = [b0, b1, b2, b3] := by
  have h0 := b0.isLt
  have h1 := b1.isLt
  have h2 := b2.isLt
  have h3 := b3.isLt
  simp only [bytes32, List.cons.injEq, and_true, ← BitVec.toNat_inj, extractByte_toNat, be32_toNat]
  refine ⟨?_, ?_, ?_, ?_⟩ <;> omega

/-- A word's value is the sum of its four digits in base 256. -/
@[simp] theorem be32_extractBytes (x : Word) :
    be32 (x.extractLsb' 24 8) (x.extractLsb' 16 8) (x.extractLsb' 8 8) (x.extractLsb' 0 8) = x := by
  apply BitVec.eq_of_toNat_eq
  have hx := x.isLt
  simp only [be32_toNat, extractByte_toNat]
  omega

/-- Settles O55: the value is the formula's, and both inverse directions compare values in base 256. -/
theorem bigEndianConversionsAreInverse : Obligations.BigEndianConversionsAreInverse :=
  ⟨fun b0 b1 b2 b3 => ⟨be32_toNat b0 b1 b2 b3, bytes32_be32 b0 b1 b2 b3⟩,
    fun x => ⟨_, _, _, _, rfl, be32_extractBytes x⟩⟩

end Sys2Proof.Machine
end

section
/-! Reads of the register window (20_memory.md R38): an access that is no write leaves every piece of the machine's state
as it was. -/

namespace Sys2Proof.Machine

/-- Only the script, the latency counter, the list of observed words and the counter of unspecified values can move, and
those are the model's own (log entries 2, 3 and 7). -/
theorem hostMove_keeps_state_of_not_write {op : HostOp} {s t : State} (hreset : op.isReset = false)
    (hwrite : ∀ width off x, op ≠ .wr width off x) (h : hostMove op s = .next t) :
    t.h = s.h ∧ t.v = s.v ∧ t.w = s.w ∧ t.m = s.m ∧ t.rc = s.rc ∧ t.pend = s.pend ∧ t.ill = s.ill ∧
    t.ovr = s.ovr ∧ t.accerr = s.accerr ∧ t.inReset = s.inReset := by
  obtain ⟨-, ⟨off, -, rfl⟩ | ⟨off, x, rfl, -⟩ | ⟨off, x, -, -, rfl⟩ | ⟨-, rfl | rfl⟩⟩ := hostMove_cases hreset h
  case inr.inl => exact absurd rfl (hwrite .w32 off x)
  all_goals simp

/-- Settles O32: on the host's turn the step is the host's move, and a `rd`, an `expect` and a poll are no writes. -/
theorem readsChangeNoState : Obligations.ReadsChangeNoState := by
  intro s t op rest hturn hread hstep
  rw [step_of_hostTurn hturn] at hstep
  obtain ⟨width, off, rfl⟩ | ⟨off, x, rfl⟩ | rfl := hread
  · exact hostMove_keeps_state_of_not_write rfl (by simp) hstep
  · exact hostMove_keeps_state_of_not_write rfl (by simp) hstep
  · exact hostMove_keeps_state_of_not_write rfl (by simp) hstep

end Sys2Proof.Machine
end

section
/-! The decoder against the opcode map (30_encoding.md R48, R50): a word is its two fields, and `decode` either answers
the command whose word it is or rejects a value of 0x08 or more. -/

namespace Sys2Proof.Machine

/-- A word's value is made of its fields RSV and OP (R48). -/
theorem toNat_eq_fields (x : Word) : x.toNat = (rsvField x).toNat * 2 ^ 8 + (opField x).toNat := by
  have hx := x.isLt
  have hrsv : (rsvField x).toNat = x.toNat / 2 ^ 8 % 2 ^ 24 := by
    rw [rsvField, BitVec.extractLsb'_toNat, Nat.shiftRight_eq_div_pow]
  have hop : (opField x).toNat = x.toNat / 2 ^ 0 % 2 ^ 8 := extractByte_toNat x 0
  omega

theorem eq_of_fields {x y : Word} (hrsv : rsvField x = rsvField y) (hop : opField x = opField y) : x = y := by
  apply BitVec.eq_of_toNat_eq
  rw [toNat_eq_fields x, toNat_eq_fields y, hrsv, hop]

/-- The reserved words of R52 are those with value 0x08 or more. -/
theorem reserved_iff (x : Word) : rsvField x ≠ 0 ∨ 0x08 ≤ (opField x).toNat ↔ 0x08 ≤ x.toNat := by
  have hx := toNat_eq_fields x
  have hrsv : rsvField x = 0 ↔ (rsvField x).toNat = 0 := BitVec.toNat_eq
  rw [ne_eq, hrsv]
  have hop := (opField x).isLt
  omega

theorem encode_inRange (i : Instr) : Laws.EncodingInRange.Statement i := by
  cases i with
  | nop => exact Laws.EncodingInRange.nop
  | init => exact Laws.EncodingInRange.init
  | expand => exact Laws.EncodingInRange.expand
  | loadv => exact Laws.EncodingInRange.loadv
  | round => exact Laws.EncodingInRange.round
  | compress => exact Laws.EncodingInRange.compress
  | accum => exact Laws.EncodingInRange.accum
  | block => exact Laws.EncodingInRange.block

theorem encode_toNat_lt (i : Instr) : (encode i).toNat < 0x08 := by
  obtain ⟨hrsv, hop⟩ := encode_inRange i
  rw [← Nat.not_le, ← reserved_iff]
  rintro (h | h)
  · exact h hrsv
  · omega

/-- The opcode map's two sides: an assigned opcode is the OP field of its command's word. -/
theorem decodeOpcode_cases (op : BitVec 8) :
    (∃ i, decodeOpcode op = .ok i ∧ op = opField (encode i)) ∨
    (decodeOpcode op = .error .reservedOpcode ∧ 0x08 ≤ op.toNat) := by
  unfold decodeOpcode
  split
  case h_9 =>
    refine .inr ⟨rfl, ?_⟩
    simp only [imp_false] at *
    omega
  all_goals
    rename_i hop
    exact .inl ⟨_, rfl, BitVec.eq_of_toNat_eq hop⟩

/-- The whole word is compared: besides OP, RSV must be the 0 of the command's word. -/
theorem decode_cases (x : Word) :
    (∃ i, decode x = .ok i ∧ x = encode i) ∨ (∃ e, decode x = .error e ∧ 0x08 ≤ x.toNat) := by
  by_cases hrsv : rsvField x = 0
  · have hdec : decode x = decodeOpcode (opField x) := if_pos hrsv
    rw [hdec]
    obtain ⟨i, hi, hop⟩ | ⟨he, hop⟩ := decodeOpcode_cases (opField x)
    · exact .inl ⟨i, hi, eq_of_fields (hrsv.trans (encode_inRange i).1.symm) hop⟩
    · exact .inr ⟨_, he, (reserved_iff x).1 (.inr hop)⟩
  · exact .inr ⟨.reservedBits, if_neg hrsv, (reserved_iff x).1 (.inl hrsv)⟩

@[simp] theorem decode_encode (i : Instr) : decode (encode i) = .ok i := by
  cases i <;> rfl

theorem decode_eq_ok_iff (x : Word) (i : Instr) : decode x = .ok i ↔ x = encode i := by
  constructor
  · intro h
    obtain ⟨j, hj, hx⟩ | ⟨e, he, -⟩ := decode_cases x
    · cases h.symm.trans hj; exact hx
    · cases h.symm.trans he
  · rintro rfl
    exact decode_encode i

theorem decode_error_iff (x : Word) : (∃ e, decode x = .error e) ↔ 0x08 ≤ x.toNat := by
  obtain ⟨i, hi, rfl⟩ | ⟨e, he, hx⟩ := decode_cases x
  · simp [encode_toNat_lt]
  · exact iff_of_true ⟨e, he⟩ hx

/-- Settles O1: the words are `encode`'s own, and each word is in exactly one case of `decode_cases`. -/
theorem decodeAgreesWithOpcodeMap : Obligations.DecodeAgreesWithOpcodeMap :=
  ⟨⟨rfl, rfl, rfl, rfl, rfl, rfl, rfl, rfl⟩, decode_eq_ok_iff, decode_error_iff⟩

end Sys2Proof.Machine
end

section
/-! CMD writes while nothing is pending (30_encoding.md R51 to R53): one rule for the write, one for a word that is not
legal, and the two ways a word is not. -/

namespace Sys2Proof.Machine

/-- The write leaves the script and then issues or rejects its word (R34, R51). -/
theorem step_cmdWrite_idle {s : State} {x : Word} {rest : List HostOp}
    (hturn : s.hostTurn (.wr .w32 0x004 x) rest) (hpend : s.pend = none) :
    step s = .next (writeCommand x (advance s)) := by
  have ⟨_, hreset, _⟩ := hturn
  calc step s = hostWrite .w32 offCmd x s := step_of_hostTurn hturn
    _ = .next (regWrite .cmd x (advance s)) := by rw [hostWrite_of_ready offCmd x hreset, classify_offCmd]
    _ = .next (writeCommand x (advance s)) := by rw [regWrite_cmd_idle x (by simp [hpend])]

/-- A word that is not legal raises ILL and does nothing else. -/
theorem step_illegalCmdWrite {s : State} {x : Word} {rest : List HostOp}
    (hturn : s.hostTurn (.wr .w32 0x004 x) rest) (hpend : s.pend = none) (hillegal : legalCommand x s.rc = none) :
    step s = .next { s with script := rest, delay := s.delay - 1, ill := true } := by
  have ⟨hscript, _, _⟩ := hturn
  rw [step_cmdWrite_idle hturn hpend, writeCommand_illegal (s := advance s) hillegal]
  simp [raise, advance, hscript]

theorem legalCommand_of_reserved {x : Word} (rc : BitVec 7) (h : 0x08 ≤ x.toNat) : legalCommand x rc = none := by
  obtain ⟨e, he⟩ := (decode_error_iff x).2 h
  simp [legalCommand, he]

theorem legalCommand_of_not_guardOk {i : Instr} {rc : BitVec 7} (h : guardOk i rc = false) :
    legalCommand (encode i) rc = none := by
  simp [legalCommand, h]

/-- Settles O38: the two kinds of reserved words are the words from 0x08 on, which no command stands for. -/
theorem reservedCommandWordRaisesIllOnly : Obligations.ReservedCommandWordRaisesIllOnly := by
  intro s x rest hturn hpend hword
  have hreserved : 0x08 ≤ x.toNat := (reserved_iff x).1 (hword.imp_right And.left)
  exact ⟨_, step_illegalCmdWrite hturn hpend (legalCommand_of_reserved s.rc hreserved), rfl,
    busy_of_pend_none hpend, rfl⟩

/-- Settles O39: in both cases the command's guard fails at the round counter of the write. -/
theorem guardedCommandWriteRaisesIllOnly : Obligations.GuardedCommandWriteRaisesIllOnly := by
  intro s i rest hturn hpend hcase
  have hguard : guardOk i s.rc = false := by
    obtain ⟨rfl, hrc⟩ | ⟨rfl, hrc⟩ := hcase
    · simp [guardOk, hrc]
    · simp [guardOk, hrc]
  exact step_illegalCmdWrite hturn hpend (legalCommand_of_not_guardOk hguard)

end Sys2Proof.Machine
end

section
/-! The schedule expander's functions (41_schedule.md R61 to R63): rotation and shift bit by bit, and the schedule as the
one solution of its recurrence. -/

namespace Sys2Proof.Machine

/-! ### Rotation and shift -/

/-- Bit `i` of a right rotation: below `32 - n` it comes from the right shift, from there on from the left shift. -/
theorem rotr_getLsbD (x : Word) {n i : Nat} (hn : 1 ≤ n) (hn' : n ≤ 31) (hi : i < 32) :
    (rotr x n).getLsbD i = x.getLsbD ((i + n) % 32) := by
  rw [rotr, BitVec.getLsbD_or, BitVec.getLsbD_ushiftRight, BitVec.getLsbD_shiftLeft]
  by_cases hlow : i < 32 - n
  · have hmod : (i + n) % 32 = n + i := by omega
    simp [hlow, hmod]
  · have hmod : (i + n) % 32 = i - (32 - n) := by omega
    have hzero : x.getLsbD (n + i) = false := BitVec.getLsbD_of_ge x (n + i) (by omega)
    simp [hlow, hmod, hi, hzero]

/-- The shift brings in zeros above bit `31 - n`. -/
theorem shr_getLsbD (x : Word) (n i : Nat) : (shr x n).getLsbD i = (decide (i + n < 32) && x.getLsbD (i + n)) := by
  rw [shr, BitVec.getLsbD_ushiftRight, Nat.add_comm]
  by_cases hlt : i + n < 32
  · simp [hlt]
  · simp [hlt, BitVec.getLsbD_of_ge x (i + n) (by omega)]

/-- Settles O6: the bits of the two rotations and of the shift, and the two examples evaluated. -/
theorem scheduleSigmasBitwise : Obligations.ScheduleSigmasBitwise := by
  refine ⟨fun x i hi => ⟨?_, ?_⟩, by decide, by decide⟩
  · rw [sigma0, BitVec.getLsbD_xor, BitVec.getLsbD_xor, rotr_getLsbD x (n := 7) (by omega) (by omega) hi,
      rotr_getLsbD x (n := 18) (by omega) (by omega) hi, shr_getLsbD]
  · rw [sigma1, BitVec.getLsbD_xor, BitVec.getLsbD_xor, rotr_getLsbD x (n := 17) (by omega) (by omega) hi,
      rotr_getLsbD x (n := 19) (by omega) (by omega) hi, shr_getLsbD]

/-! ### One turn of the loop -/

theorem expandStep_getElem_same (w : Words64) (n : Fin 48) :
    (expandStep w n)[n.val + 16] = sigma0 w[n.val + 1] + w[n.val] + sigma1 w[n.val + 14] + w[n.val + 9] := by
  simp [expandStep]

theorem expandStep_getElem_of_lt (w : Words64) (n : Fin 48) {i : Nat} (hi : i < n.val + 16) :
    (expandStep w n)[i] = w[i] := by
  rw [expandStep, Vector.getElem_set_ne _ _ (by omega)]

/-! ### The loop -/

/-- The words of `w` below `n + 16` are as R61 gives them for the block `m`. -/
def IsScheduleUpTo (m : Words16) (n : Nat) (w : Words64) : Prop :=
  (∀ i (h : i < 16), w[i] = m[i]) ∧
  ∀ i (h : 16 ≤ i ∧ i < 64), i < n + 16 → w[i] = sigma0 w[i - 15] + w[i - 16] + sigma1 w[i - 2] + w[i - 7]

theorem isScheduleUpTo_init (m : Words16) : IsScheduleUpTo m 0 (m ++ Vector.replicate 48 (0 : Word)) :=
  ⟨fun _ hi => Vector.getElem_append_left hi, fun _ hi hlt => absurd hi.1 (by omega)⟩

/-- A turn leaves the words below its index, and those are the ones the recurrence reads. -/
theorem isScheduleUpTo_expandStep {m : Words16} {n : Fin 48} {w : Words64} (hw : IsScheduleUpTo m n w) :
    IsScheduleUpTo m (n + 1) (expandStep w n) := by
  obtain ⟨hprefix, hrec⟩ := hw
  constructor
  · intro i hi
    rw [expandStep_getElem_of_lt w n (by omega), hprefix i hi]
  · intro i hi hlt
    rw [expandStep_getElem_of_lt w n (i := i - 15) (by omega), expandStep_getElem_of_lt w n (i := i - 16) (by omega),
      expandStep_getElem_of_lt w n (i := i - 2) (by omega), expandStep_getElem_of_lt w n (i := i - 7) (by omega)]
    obtain hold | rfl : i < n.val + 16 ∨ i = n.val + 16 := by omega
    · rw [expandStep_getElem_of_lt w n hold, hrec i hi hold]
    · exact expandStep_getElem_same w n

/-- A loop over all indices in order: what holds at the start and is carried from each index to the next holds at the
end. -/
theorem foldl_finRange_induction {α : Type} {n : Nat} {f : α → Fin n → α} {a : α} {P : Nat → α → Prop} (h0 : P 0 a)
    (hstep : ∀ (i : Fin n) (b : α), P i b → P (i + 1) (f b i)) : P n ((List.finRange n).foldl f a) := by
  induction n with
  | zero => exact h0
  | succ n ih =>
    rw [List.finRange_succ_last, List.foldl_append, List.foldl_map]
    exact hstep (Fin.last n) _ (ih fun i b hb => hstep i.castSucc b hb)

theorem expand_isSchedule (m : Words16) : IsScheduleUpTo m 48 (expand m) :=
  foldl_finRange_induction (isScheduleUpTo_init m) fun _ _ => isScheduleUpTo_expandStep

/-- The recurrence gives each word from words before it, so a schedule has no freedom beyond its block. -/
theorem isSchedule_unique {m : Words16} {w w' : Words64} (hw : IsScheduleUpTo m 48 w) (hw' : IsScheduleUpTo m 48 w') :
    w = w' := by
  obtain ⟨hprefix, hrec⟩ := hw
  obtain ⟨hprefix', hrec'⟩ := hw'
  apply Vector.ext
  intro i
  induction i using Nat.strongRecOn with
  | ind i ih =>
    intro hi
    by_cases hlow : i < 16
    · rw [hprefix i hlow, hprefix' i hlow]
    · rw [hrec i (by omega) hi, hrec' i (by omega) hi, ih (i - 15) (by omega), ih (i - 16) (by omega),
        ih (i - 2) (by omega), ih (i - 7) (by omega)]

/-- Settles O9: the loop's result is a schedule, and there is only one. -/
theorem expandIsTheScheduleRecurrence : Obligations.ExpandIsTheScheduleRecurrence := by
  intro m w
  constructor
  · rintro rfl
    obtain ⟨hprefix, hrec⟩ := expand_isSchedule m
    exact ⟨hprefix, fun i hi => hrec i hi hi.2⟩
  · rintro ⟨hprefix, hrec⟩
    exact isSchedule_unique ⟨hprefix, fun i hi _ => hrec i hi⟩ (expand_isSchedule m)

end Sys2Proof.Machine
end

section
/-! The laws of the expansion and of EXPAND (41_schedule.md R64, R65). -/

namespace Sys2Proof.Machine

theorem exec_expand (s : State) : exec .expand s = .next { s with w := expand s.m } := rfl

theorem w_of_exec_expand {s t : State} (h : exec .expand s = .next t) : t.w = expand s.m := by
  cases h
  rfl

/-- Word 16 of a schedule, the first that R61's recurrence gives. -/
theorem expand_getElem_sixteen (m : Words16) : (expand m)[16] = sigma0 m[1] + m[0] + sigma1 m[14] + m[9] := by
  obtain ⟨hprefix, hrec⟩ := (expandIsTheScheduleRecurrence m (expand m)).1 rfl
  rw [hrec 16 (by omega), hprefix, hprefix, hprefix, hprefix]

/-- The block whose word `j` is 1 and whose other words are 0. -/
def unitBlock (j : Fin 16) : Words16 := (Vector.replicate 16 0).set j 1

/-- Words 0 and 9 are both summands of W[16]: the sum of 1 and 1 carries, and the xor of 1 and 1 does not. -/
theorem expand_not_linear_over_xor :
    expand ((unitBlock 0).zipWith (· ^^^ ·) (unitBlock 9)) ≠
      (expand (unitBlock 0)).zipWith (· ^^^ ·) (expand (unitBlock 9)) := by
  intro h
  have hword := congrArg (fun w : Words64 => w[16]) h
  simp only [Vector.getElem_zipWith, expand_getElem_sixteen] at hword
  exact absurd hword (by decide)

/-- Settles O17: after EXPAND, W is `Expand(M)`, which O9 describes; the pair of blocks is the one above. -/
theorem expandLaws : Obligations.ExpandLaws := by
  have hexpand (m : Words16) := (expandIsTheScheduleRecurrence m (expand m)).1 rfl
  refine ⟨fun m => (hexpand m).1, ⟨_, _, expand_not_linear_over_xor⟩, ?_, ?_⟩
  · intro s s' t t' hm h h'
    rw [w_of_exec_expand h, w_of_exec_expand h', hm]
  · intro s t h
    rw [w_of_exec_expand h]
    exact hexpand s.m

end Sys2Proof.Machine
end

section
/-! The compression functions bit by bit (42_compression.md R67 to R70). -/

namespace Sys2Proof.Machine

/-- Settles O7: the bits of the three rotations of each sum, and the two examples evaluated. -/
theorem compressionSigmasBitwise : Obligations.CompressionSigmasBitwise := by
  refine ⟨fun x i hi => ⟨?_, ?_⟩, by decide, by decide⟩
  · rw [bigSigma0, BitVec.getLsbD_xor, BitVec.getLsbD_xor, rotr_getLsbD x (n := 2) (by omega) (by omega) hi,
      rotr_getLsbD x (n := 13) (by omega) (by omega) hi, rotr_getLsbD x (n := 22) (by omega) (by omega) hi]
  · rw [bigSigma1, BitVec.getLsbD_xor, BitVec.getLsbD_xor, rotr_getLsbD x (n := 6) (by omega) (by omega) hi,
      rotr_getLsbD x (n := 11) (by omega) (by omega) hi, rotr_getLsbD x (n := 25) (by omega) (by omega) hi]

theorem ch_getLsbD (e f g : Word) {i : Nat} (hi : i < 32) :
    (ch e f g).getLsbD i = if e.getLsbD i then f.getLsbD i else g.getLsbD i := by
  rw [ch, BitVec.getLsbD_xor, BitVec.getLsbD_and, BitVec.getLsbD_and, BitVec.getLsbD_not]
  cases e.getLsbD i with
  | true => simp
  | false => simp [hi]

/-- The xor of the three pairwise conjunctions is the majority of three bits. -/
theorem xor_pairs_eq_majority (a b c : Bool) :
    (((a && b) ^^ (a && c)) ^^ (b && c)) = decide (2 ≤ a.toNat + b.toNat + c.toNat) := by
  cases a <;> cases b <;> cases c <;> rfl

theorem maj_getLsbD (a b c : Word) (i : Nat) : (maj a b c).getLsbD i =
    decide (2 ≤ (a.getLsbD i).toNat + (b.getLsbD i).toNat + (c.getLsbD i).toNat) := by
  rw [maj, BitVec.getLsbD_xor, BitVec.getLsbD_xor, BitVec.getLsbD_and, BitVec.getLsbD_and, BitVec.getLsbD_and,
    xor_pairs_eq_majority]

/-- Settles O8: the formulas are the definitions, their bits are those of the two lemmas above, and the two examples are
evaluated. -/
theorem choiceAndMajority : Obligations.ChoiceAndMajority :=
  ⟨fun e f g => ⟨rfl, fun _ hi => ch_getLsbD e f g hi⟩, fun a b c => ⟨rfl, fun i _ => maj_getLsbD a b c i⟩,
    by decide, by decide⟩

end Sys2Proof.Machine
end

section
/-! One round (42_compression.md R66, R76): its words, and how V before a round is found from V after it. -/

namespace Sys2Proof.Machine

theorem roundFn_getElem_zero (v : Words8) (kw ww : Word) : (roundFn v kw ww)[0] = roundT1 v kw ww + roundT2 v := rfl

theorem roundFn_getElem_four (v : Words8) (kw ww : Word) : (roundFn v kw ww)[4] = v[3] + roundT1 v kw ww := rfl

/-- The six words that a round moves one place up: all but those at 0 and 4. -/
theorem roundFn_getElem_of_shifted (v : Words8) (kw ww : Word) {i : Nat} (hi : i < 8) (h0 : i ≠ 0) (h4 : i ≠ 4) :
    (roundFn v kw ww)[i] = v[i - 1] := by
  interval_cases i
  exacts [absurd rfl h0, rfl, rfl, rfl, absurd rfl h4, rfl, rfl, rfl]

/-- T2 of a round from V after it: the round only moves the words that T2 is made of. -/
def undoneT2 (v : Words8) : Word := bigSigma0 v[1] + maj v[1] v[2] v[3]

/-- T1 of a round from V after it, whose first word is T1 + T2. -/
def undoneT1 (v : Words8) : Word := v[0] - undoneT2 v

/-- V before a round from V after it: six words move back, and T1 gives the two words that a round adds it to. -/
def unroundFn (v : Words8) (kw ww : Word) : Words8 :=
  #v[v[1], v[2], v[3], v[4] - undoneT1 v, v[5], v[6], v[7],
     undoneT1 v - (bigSigma1 v[5] + ch v[5] v[6] v[7] + kw + ww)]

theorem undoneT1_roundFn (v : Words8) (kw ww : Word) : undoneT1 (roundFn v kw ww) = roundT1 v kw ww :=
  add_sub_cancel_right (roundT1 v kw ww) (roundT2 v)

theorem roundT1_unroundFn (v : Words8) (kw ww : Word) : roundT1 (unroundFn v kw ww) kw ww = undoneT1 v := by
  have hT1 : roundT1 (unroundFn v kw ww) kw ww =
      undoneT1 v - (bigSigma1 v[5] + ch v[5] v[6] v[7] + kw + ww) + bigSigma1 v[5] + ch v[5] v[6] v[7] + kw + ww := rfl
  rw [hT1]
  abel

theorem unroundFn_roundFn (v : Words8) (kw ww : Word) : unroundFn (roundFn v kw ww) kw ww = v := by
  have hd : v[3] + roundT1 v kw ww - undoneT1 (roundFn v kw ww) = v[3] := by
    rw [undoneT1_roundFn, add_sub_cancel_right]
  have hh : undoneT1 (roundFn v kw ww) - (bigSigma1 v[4] + ch v[4] v[5] v[6] + kw + ww) = v[7] := by
    rw [undoneT1_roundFn, roundT1]
    abel
  apply Vector.ext
  intro i hi
  interval_cases i
  exacts [rfl, rfl, rfl, hd, rfl, rfl, rfl, hh]

theorem roundFn_unroundFn (v : Words8) (kw ww : Word) : roundFn (unroundFn v kw ww) kw ww = v := by
  have h0 : roundT1 (unroundFn v kw ww) kw ww + undoneT2 v = v[0] := by
    rw [roundT1_unroundFn, undoneT1, sub_add_cancel]
  have h4 : v[4] - undoneT1 v + roundT1 (unroundFn v kw ww) kw ww = v[4] := by
    rw [roundT1_unroundFn, sub_add_cancel]
  apply Vector.ext
  intro i hi
  interval_cases i
  exacts [h0, rfl, rfl, rfl, h4, rfl, rfl, rfl]

theorem roundFn_bijective (kw ww : Word) : Function.Bijective (fun v : Words8 => roundFn v kw ww) :=
  Function.bijective_iff_has_inverse.2
    ⟨(unroundFn · kw ww), (unroundFn_roundFn · kw ww), (roundFn_unroundFn · kw ww)⟩

/-- Settles O11: the new words at 0 and 4 share T1, which their difference cancels, and a round can be undone. -/
theorem roundShiftsTheChainAndIsBijective : Obligations.RoundShiftsTheChainAndIsBijective := by
  refine fun kw ww => ⟨fun v => ⟨?_, ?_, ?_, ?_, BitVec.toNat_add _ _, BitVec.toNat_add _ _⟩, roundFn_bijective kw ww⟩
  · exact fun i hi => roundFn_getElem_of_shifted v kw ww (by omega) (by omega) (by omega)
  · exact fun i hi => roundFn_getElem_of_shifted v kw ww (by omega) (by omega) (by omega)
  · rw [roundFn_getElem_zero, roundFn_getElem_four]
    abel
  · rw [roundFn_getElem_zero, roundFn_getElem_four]
    abel

end Sys2Proof.Machine
end

section
/-! ROUND by ROUND as COMPRESS (42_compression.md R71, R75): what the first `n` rounds leave in V. -/

namespace Sys2Proof.Machine

/-- V after the rounds below `n` of `Compress(h, w)` (R71). -/
def compressUpTo (h : Words8) (w : Words64) (n : Nat) : Words8 :=
  ((List.finRange 64).take n).foldl (fun v i => roundFn v roundConstants[i] w[i]) h

theorem compressUpTo_zero (h : Words8) (w : Words64) : compressUpTo h w 0 = h := rfl

theorem compressUpTo_succ (h : Words8) (w : Words64) {n : Nat} (hn : n < 64) :
    compressUpTo h w (n + 1) = roundFn (compressUpTo h w n) roundConstants[n] w[n] := by
  have htake : (List.finRange 64).take (n + 1) = (List.finRange 64).take n ++ [⟨n, hn⟩] := by
    rw [List.take_succ_eq_append_getElem (by simpa using hn), List.getElem_finRange]
    rfl
  rw [compressUpTo, htake, List.foldl_append]
  rfl

theorem compressUpTo_sixtyFour (h : Words8) (w : Words64) : compressUpTo h w 64 = compress h w := by
  rw [compressUpTo, List.take_of_length_le (by simp), compress]

theorem execAll_append_of_next {is is' : List Instr} {s t : State} (h : execAll is s = .next t) :
    execAll (is ++ is') s = execAll is' t := by
  induction is generalizing s with
  | nil => cases h; rfl
  | cons i is ih =>
    rw [execAll] at h
    rw [List.cons_append, execAll]
    cases hexec : exec i s with
    | next u => rw [hexec] at h; exact ih h
    | fault r => rw [hexec] at h; cases h
    | refused r => rw [hexec] at h; cases h

theorem execAll_singleton_of_next {i : Instr} {s t : State} (h : exec i s = .next t) : execAll [i] s = .next t := by
  rw [execAll, h]
  rfl

/-- RC is wide enough for the counts of rounds done (R13). -/
theorem rc_ofNat_toNat {n : Nat} (hn : n ≤ 64) : (BitVec.ofNat 7 n).toNat = n := by
  rw [BitVec.toNat_ofNat, Nat.mod_eq_of_lt (by omega)]

/-- After LOADV and `n` ROUNDs, V has passed the rounds below `n`, and RC is `n`. -/
theorem execAll_loadv_rounds (s : State) {n : Nat} (hn : n ≤ 64) :
    execAll (.loadv :: List.replicate n .round) s =
      .next { s with v := compressUpTo s.h s.w n, rc := BitVec.ofNat 7 n } := by
  induction n with
  | zero =>
    rw [compressUpTo_zero]
    rfl
  | succ n ih =>
    have hrc : (BitVec.ofNat 7 n).toNat = n := rc_ofNat_toNat (by omega)
    rw [List.replicate_succ', ← List.cons_append, execAll_append_of_next (ih (by omega))]
    apply execAll_singleton_of_next
    rw [exec_round_of_lt (hrc.trans_lt hn)]
    simp only [hrc, compressUpTo_succ s.h s.w hn, BitVec.ofNat_add]
    rfl

/-- Settles O25: all 64 rounds make `Compress(H, W)`, and after `n` of them RC is `n`, which is below 64 for each ROUND. -/
theorem loadvAndSixtyFourRoundsEqualCompress : Obligations.LoadvAndSixtyFourRoundsEqualCompress := by
  intro s
  constructor
  · refine ⟨_, execAll_loadv_rounds s le_rfl, ?_⟩
    rw [compressUpTo_sixtyFour]
    rfl
  · intro n hn
    have hrc : (BitVec.ofNat 7 n).toNat = n := rc_ofNat_toNat hn.le
    exact ⟨_, execAll_loadv_rounds s hn.le, hrc, by simpa [guardOk, hrc] using hn⟩

end Sys2Proof.Machine
end

section
/-! The hash state accumulator (43_accumulate.md R77, R80, R81): the fold of one block, BLOCK by its three stages, and
the chain of blocks after INIT. -/

namespace Sys2Proof.Machine

/-! ### The commands between blocks -/

/-- No command stops, whether its guard holds or fails (R60, R97). -/
theorem exec_answers_next (i : Instr) (s : State) : ∃ t, exec i s = .next t := by
  cases hguard : guardOk i s.rc with
  | false => exact ⟨_, exec_of_not_guardOk hguard⟩
  | true =>
    cases i with
    | round => exact ⟨_, exec_round_of_lt (by simpa [guardOk] using hguard)⟩
    | accum => exact ⟨_, exec_accum_of_eq (by simpa [guardOk] using hguard)⟩
    | nop | init | expand | loadv | compress | block => exact ⟨_, rfl⟩

/-- The commands other than the writers of H (R14). -/
def NotWriterOfH (i : Instr) : Prop := i ≠ .init ∧ i ≠ .accum ∧ i ≠ .block

theorem h_of_exec_notWriterOfH {i : Instr} {s t : State} (hi : NotWriterOfH i) (h : exec i s = .next t) :
    t.h = s.h := by
  obtain ⟨hinit, haccum, hblock⟩ := hi
  obtain ⟨-, -, rfl⟩ | ⟨-, rfl⟩ | ⟨rfl, -⟩ | ⟨-, rfl⟩ | ⟨-, rfl⟩ | ⟨-, -, rfl⟩ | ⟨-, rfl⟩ | ⟨rfl, -⟩ | ⟨rfl, -⟩ :=
    exec_cases h
  exacts [rfl, rfl, absurd rfl hinit, rfl, rfl, rfl, rfl, absurd rfl haccum, absurd rfl hblock]

theorem execAll_cons_of_next {i : Instr} {is : List Instr} {s t : State} (h : exec i s = .next t) :
    execAll (i :: is) s = execAll is t := by
  rw [execAll, h]

theorem execAll_notWritersOfH {is : List Instr} (his : ∀ i ∈ is, NotWriterOfH i) (s : State) :
    ∃ t, execAll is s = .next t ∧ t.h = s.h := by
  induction is generalizing s with
  | nil => exact ⟨s, rfl, rfl⟩
  | cons i is ih =>
    obtain ⟨hi, his⟩ := List.forall_mem_cons.1 his
    obtain ⟨t, ht⟩ := exec_answers_next i s
    obtain ⟨u, hu, hkept⟩ := ih his t
    exact ⟨u, (execAll_cons_of_next ht).trans hu, hkept.trans (h_of_exec_notWriterOfH hi ht)⟩

/-! ### The chain of blocks -/

/-- BLOCK in one record update (R79). -/
theorem exec_block (s : State) : exec .block s = .next { s with
    w := expand s.m, v := compress s.h (expand s.m), h := hashBlock s.h s.m, rc := 0 } := rfl

theorem execBlocks_cons_of_next {is : List Instr} {b : Words16} {bs : List (List Instr × Words16)} {s t u : State}
    (hbefore : execAll is s = .next t) (hblock : exec .block { t with m := b } = .next u) :
    execBlocks ((is, b) :: bs) s = execBlocks bs u := by
  simp only [execBlocks, hbefore, hblock]

/-- From any H: each block replaces H by `hashBlock` of it, so a sequence that does the same from the same H ends
there. -/
theorem execBlocks_chains_hashBlock {bs : List (List Instr × Words16)} {hs : Nat → Words8} {s : State}
    (hbs : ∀ p ∈ bs, ∀ i ∈ p.1, NotWriterOfH i) (hstart : hs 0 = s.h)
    (hchain : ∀ n (h : n < bs.length), hs (n + 1) = hashBlock (hs n) bs[n].2) :
    ∃ u, execBlocks bs s = .next u ∧ u.h = hs bs.length := by
  induction bs generalizing hs s with
  | nil => exact ⟨s, rfl, hstart.symm⟩
  | cons p bs ih =>
    obtain ⟨is, b⟩ := p
    obtain ⟨his, hbs⟩ := List.forall_mem_cons.1 hbs
    obtain ⟨t, ht, hkept⟩ := execAll_notWritersOfH his s
    have hfirst : hs 1 = hashBlock t.h b := by
      rw [hkept, ← hstart]
      exact hchain 0 (Nat.zero_lt_succ _)
    rw [execBlocks_cons_of_next ht (exec_block _)]
    exact ih (hs := fun n => hs (n + 1)) hbs hfirst fun n hn => hchain (n + 1) (Nat.succ_lt_succ hn)

/-- Settles O27: INIT sets H to IV, the start of the chain. -/
theorem blocksChainTheHashState : Obligations.BlocksChainTheHashState := by
  intro s bs hs hbs hstart hchain
  obtain ⟨t, ht⟩ : ∃ t, exec .init s = .next t := exec_answers_next .init s
  have hiv : t.h = initialHash := by
    cases ht
    rfl
  obtain ⟨u, hu, hlast⟩ := execBlocks_chains_hashBlock hbs (hstart.trans hiv.symm) hchain
  exact ⟨t, u, ht, hu, hlast⟩

/-! ### The fold -/

theorem accumulate_getElem (h v : Words8) {j : Nat} (hj : j < 8) : (accumulate h v)[j] = h[j] + v[j] :=
  Vector.getElem_zipWith hj

/-- Settles O12: each word is a sum of two words, and a sum of words wraps. -/
theorem accumulateAddsWordByWord : Obligations.AccumulateAddsWordByWord := by
  intro h v j hj
  rw [accumulate_getElem, BitVec.toNat_add]

/-! ### BLOCK by its stages -/

/-- After EXPAND, COMPRESS works on the schedule of M and leaves RC at 64. -/
theorem execAll_expand_compress (s : State) : execAll [.expand, .compress] s =
    .next { s with w := expand s.m, v := compress s.h (expand s.m), rc := 64 } := rfl

/-- Settles O26: the ACCUM finds RC at 64 and the H that COMPRESS started from, as the fold of BLOCK does. -/
theorem blockEqualsExpandCompressAccum : Obligations.BlockEqualsExpandCompressAccum := by
  intro s
  have hstages := execAll_expand_compress s
  refine ⟨⟨_, ?_, exec_block s⟩, ⟨_, hstages, rfl, rfl⟩⟩
  calc execAll ([.expand, .compress] ++ [.accum]) s
    _ = execAll [.accum] _ := execAll_append_of_next hstages
    _ = _ := execAll_singleton_of_next (exec_accum_of_eq rfl)

end Sys2Proof.Machine
end

section
/-! Padding (45_host_digest.md R82, R83): the zero count is the one remainder mod 64 that fills the last block, and the
rest about the padded length follows from that. -/

namespace Sys2Proof.Machine

/-! ### The zero count -/

theorem padZeros_lt (len : Nat) : padZeros len < 64 := Nat.mod_lt _ (by decide)

/-- After the message, the byte 0x80 and the zeros, 8 bytes are left in the last block for the bit length. -/
theorem add_padZeros_mod (len : Nat) : (len + 1 + padZeros len) % 64 = 56 := by
  unfold padZeros
  omega

/-- R82's formula, with a difference that may be negative: it is the remainder that `add_padZeros_mod` fixes. -/
theorem padZeros_eq_int_mod (len : Nat) : (padZeros len : Int) = (55 - (len : Int)) % 64 := by
  have hlt := padZeros_lt len
  have hmod := add_padZeros_mod len
  omega

/-- Any other solution is in the same class mod 64, and the zero count is below 64. -/
theorem padZeros_le_of_add_mod {len k : Nat} (hk : (len + 1 + k) % 64 = 56) : padZeros len ≤ k := by
  have hlt := padZeros_lt len
  have hmod := add_padZeros_mod len
  omega

/-! ### The padded message -/

@[simp] theorem be64_length (x : Nat) : (be64 x).length = 8 := rfl

/-- R82's concatenation, cut where the bit length begins. -/
theorem padBytes_eq_append (msg : List Byte) :
    padBytes msg = (msg ++ 0x80 :: List.replicate (padZeros msg.length) 0x00) ++ be64 (8 * msg.length) := by
  simp [padBytes]

/-- Where the bit length begins. -/
theorem length_beforeBitLength (msg : List Byte) :
    (msg ++ 0x80 :: List.replicate (padZeros msg.length) 0x00).length = msg.length + 1 + padZeros msg.length := by
  rw [List.length_append, List.length_cons, List.length_replicate]
  omega

theorem padBytes_length (msg : List Byte) : (padBytes msg).length = msg.length + 9 + padZeros msg.length := by
  rw [padBytes_eq_append, List.length_append, length_beforeBitLength, be64_length]
  omega

theorem padBytes_length_mod (msg : List Byte) : (padBytes msg).length % 64 = 0 := by
  have hmod := add_padZeros_mod msg.length
  rw [padBytes_length]
  omega

/-- The padded length is the first multiple of 64 above `L + 8`: `L + 9` bytes are needed, and fewer than 64 zeros are
added to them. -/
theorem blockCount_padBytes (msg : List Byte) : blockCount (padBytes msg) = (msg.length + 8) / 64 + 1 := by
  have hlt := padZeros_lt msg.length
  have hmod := add_padZeros_mod msg.length
  rw [blockCount, padBytes_length]
  omega

theorem take_padBytes (msg : List Byte) : (padBytes msg).take (msg.length + 1 + padZeros msg.length) =
    msg ++ 0x80 :: List.replicate (padZeros msg.length) 0x00 := by
  rw [padBytes_eq_append, ← length_beforeBitLength]
  exact List.take_left

/-- Settles O56: the zero count is below 64 and solves R83's congruence, from which the counts follow; the prefix is
R82's concatenation up to the bit length. -/
theorem paddingFillsWholeBlocks : Obligations.PaddingFillsWholeBlocks := fun msg =>
  ⟨padZeros_eq_int_mod _, add_padZeros_mod _, fun _ => padZeros_le_of_add_mod, padBytes_length msg,
    padBytes_length_mod msg, blockCount_padBytes msg, take_padBytes msg⟩

end Sys2Proof.Machine
end

section
/-! The sticky flags (60_exceptions.md R99, R102): each is kept by everything but a STATUS write with its bit and a reset
event, and nothing that a write or a completion does depends on them. -/

namespace Sys2Proof.Machine

/-! ### One flag by its name -/

/-- The value of a flag, so that what holds of all three is said once. -/
def State.flag (s : State) : Flag → Bool
  | .ill => s.ill
  | .ovr => s.ovr
  | .accerr => s.accerr

/-- The bit of STATUS that reads a flag and, written as 1, clears it (R22). -/
def Flag.statusBit : Flag → Nat
  | .ill => 1
  | .ovr => 2
  | .accerr => 3

theorem flag_eq_iff (s t : State) :
    (∀ f, t.flag f = s.flag f) ↔ t.ill = s.ill ∧ t.ovr = s.ovr ∧ t.accerr = s.accerr := by
  constructor
  · intro h
    exact ⟨h .ill, h .ovr, h .accerr⟩
  · rintro ⟨hill, hovr, haccerr⟩ f
    cases f
    exacts [hill, hovr, haccerr]

@[simp] theorem flag_raise (f g : Flag) (s : State) : (raise g s).flag f = (s.flag f || g == f) := by
  cases f <;> rfl

@[simp] theorem flag_clearFlags (f : Flag) (x : Word) (s : State) :
    (clearFlags x s).flag f = (s.flag f && !x.getLsbD f.statusBit) := by
  cases f <;> rfl

@[simp] theorem flag_issue (f : Flag) (i : Instr) (s : State) : (issue i s).flag f = s.flag f := by
  cases f <;> rfl

@[simp] theorem flag_setM (f : Flag) (i : Fin 16) (x : Word) (s : State) : (setM i x s).flag f = s.flag f := by
  cases f <;> rfl

@[simp] theorem flag_advance (f : Flag) (s : State) : (advance s).flag f = s.flag f := by
  cases f <;> rfl

@[simp] theorem flag_retire (f : Flag) (s : State) : (retire s).flag f = s.flag f := by
  cases f <;> rfl

/-! ### What keeps a flag -/

/-- A command leaves the flags; only one whose guard fails, which is never issued, raises ILL (R53, log entry 4). -/
theorem exec_raises_or_keeps_flags {i : Instr} {s t : State} (h : exec i s = .next t) :
    (guardOk i s.rc = false ∧ t = raise .ill s) ∨ ∀ f, t.flag f = s.flag f := by
  rw [flag_eq_iff]
  obtain ⟨hguard, -, rfl⟩ | ⟨-, rfl⟩ | ⟨-, rfl⟩ | ⟨-, rfl⟩ | ⟨-, rfl⟩ | ⟨-, -, rfl⟩ | ⟨-, rfl⟩ | ⟨-, -, rfl⟩ | ⟨-, rfl⟩ :=
    exec_cases h
  case inl => exact .inl ⟨hguard, rfl⟩
  all_goals exact .inr ⟨rfl, rfl, rfl⟩

theorem exec_keeps_set_flag {f : Flag} {i : Instr} {s t : State} (h : exec i s = .next t) (hf : s.flag f = true) :
    t.flag f = true := by
  obtain ⟨-, rfl⟩ | hkept := exec_raises_or_keeps_flags h
  · simp [hf]
  · rw [hkept, hf]

/-- A register write loses a set flag only as the write of 1 to its bit of STATUS (R22). -/
theorem regWrite_keeps_set_flag {f : Flag} (c : RegClass) (x : Word) {s : State} (hf : s.flag f = true) :
    (regWrite c x s).flag f = true ∨ (c = .status ∧ x.getLsbD f.statusBit = true) := by
  obtain ⟨g, h⟩ | ⟨hstatus, h⟩ | ⟨i, -, -, h⟩ | ⟨i, -, -, -, h⟩ := regWrite_cases c x s
  · exact .inl (by simp [h, hf])
  · cases hbit : x.getLsbD f.statusBit with
    | true => exact .inr ⟨hstatus, rfl⟩
    | false => exact .inl (by simp [h, hf, hbit])
  · exact .inl (by simp [h, hf])
  · exact .inl (by simp [h, hf])

/-- STATUS is the class of one offset only (R31). -/
theorem eq_of_classify_status {off : Offset} (h : classify off = .status) : off = 0x008 := by
  apply BitVec.eq_of_toNat_eq
  simpa [h] using classify_cases off

/-- An access that is no write touches no flag (R38), and a write is a register write. -/
theorem hostMove_keeps_set_flag {f : Flag} {op : HostOp} {s t : State} (hreset : op.isReset = false)
    (h : hostMove op s = .next t) (hf : s.flag f = true) :
    t.flag f = true ∨ ∃ x, op = .wr .w32 0x008 x ∧ x.getLsbD f.statusBit = true := by
  by_cases hwrite : ∃ width off x, op = .wr width off x
  · obtain ⟨width, off, x, rfl⟩ := hwrite
    obtain ⟨-, ⟨_, hop, -⟩ | ⟨_, _, hop, rfl⟩ | ⟨_, _, hop, -⟩ | ⟨hop, -⟩⟩ := hostMove_cases hreset h <;> cases hop
    refine (regWrite_keeps_set_flag (classify off) x (s := advance s) (by simpa using hf)).imp_right ?_
    rintro ⟨hclass, hbit⟩
    exact ⟨x, by rw [eq_of_classify_status hclass], hbit⟩
  · obtain ⟨-, -, -, -, -, -, hill, hovr, haccerr, -⟩ :=
      hostMove_keeps_state_of_not_write hreset (fun width off x hop => hwrite ⟨width, off, x, hop⟩) h
    exact .inl (((flag_eq_iff s t).2 ⟨hill, hovr, haccerr⟩ f).trans hf)

/-- R102 for one flag. -/
theorem step_keeps_set_flag (f : Flag) {s t : State} (h : step s = .next t) (hf : s.flag f = true) :
    t.flag f = true ∨ s.resetEvent ∨
      ∃ x rest, s.hostTurn (.wr .w32 0x008 x) rest ∧ x.getLsbD f.statusBit = true := by
  obtain ⟨i, -, hdone⟩ | ⟨rest, hscript, -⟩ | ⟨rest, hscript, rfl⟩ | ⟨op, rest, hturn, hop, hmove⟩ | ⟨-, -, rfl⟩ :=
    step_cases h
  · obtain ⟨u, hexec, rfl⟩ := (completion_next_iff _ _).1 hdone
    exact .inl ((flag_retire f u).trans (exec_keeps_set_flag hexec hf))
  · exact .inr (.inl (.inl (by simp [hscript])))
  · cases hasserted : s.inReset with
    | true => exact .inr (.inl (.inr ⟨by simp [hscript], hasserted⟩))
    | false => exact .inl (by simp [resetRelease_of_not_asserted hasserted, hf])
  · obtain hkept | ⟨x, rfl, hbit⟩ := hostMove_keeps_set_flag hop hmove hf
    · exact .inl hkept
    · exact .inr (.inr ⟨x, rest, hturn, hbit⟩)
  · exact .inl hf

/-- Under the invariant the pending command has passed its guard, so its completion raises nothing. -/
theorem completion_keeps_flags {s t : State} {i : Instr} (hinv : s.Inv) (hturn : s.engineTurn i)
    (h : step s = .next t) : ∀ f, t.flag f = s.flag f := by
  obtain ⟨-, hpassed, -⟩ := hinv
  have ⟨hpend, _⟩ := hturn
  have hguard : guardOk i s.rc = true := by simpa [hpend] using hpassed
  rw [step_of_engineTurn hturn] at h
  obtain ⟨u, hexec, rfl⟩ := (completion_next_iff _ _).1 h
  obtain ⟨hfails, -⟩ | hkept := exec_raises_or_keeps_flags hexec
  · exact absurd (hguard.symm.trans hfails) (by decide)
  · exact fun f => (flag_retire f u).trans (hkept f)

/-! ### The flags block nothing -/

/-- The state with other flag values and nothing else changed. -/
def State.withFlags (s : State) (a b c : Bool) : State := { s with ill := a, ovr := b, accerr := c }

/-- A command does the same with other flag values: what it reads and what its guard reads are no flags. -/
theorem exec_withFlags {i : Instr} {s t : State} (a b c : Bool) (h : exec i s = .next t) :
    ∃ a' b' c', exec i (s.withFlags a b c) = .next (t.withFlags a' b' c') := by
  obtain ⟨hguard, -, rfl⟩ | ⟨rfl, rfl⟩ | ⟨rfl, rfl⟩ | ⟨rfl, rfl⟩ | ⟨rfl, rfl⟩ | ⟨rfl, hrc, rfl⟩ | ⟨rfl, rfl⟩ |
    ⟨rfl, hrc, rfl⟩ | ⟨rfl, rfl⟩ := exec_cases h
  exacts [⟨_, _, _, exec_of_not_guardOk (s := s.withFlags a b c) hguard⟩, ⟨a, b, c, rfl⟩, ⟨a, b, c, rfl⟩,
    ⟨a, b, c, rfl⟩, ⟨a, b, c, rfl⟩, ⟨a, b, c, exec_round_of_lt (s := s.withFlags a b c) hrc⟩, ⟨a, b, c, rfl⟩,
    ⟨a, b, c, exec_accum_of_eq (s := s.withFlags a b c) hrc⟩, ⟨a, b, c, rfl⟩]

/-- A CMD write looks at its word and at RC only. -/
theorem writeCommand_withFlags (x : Word) (s : State) (a b c : Bool) :
    ∃ a' b' c', writeCommand x (s.withFlags a b c) = (writeCommand x s).withFlags a' b' c' := by
  cases hlegal : legalCommand x s.rc with
  | some i =>
    rw [writeCommand_legal hlegal, writeCommand_legal (s := s.withFlags a b c) hlegal]
    exact ⟨_, _, _, rfl⟩
  | none =>
    rw [writeCommand_illegal hlegal, writeCommand_illegal (s := s.withFlags a b c) hlegal]
    exact ⟨_, _, _, rfl⟩

/-- A register write looks at its class, at BUSY and at what a CMD write looks at. -/
theorem regWrite_withFlags (k : RegClass) (x : Word) (s : State) (a b c : Bool) :
    ∃ a' b' c', regWrite k x (s.withFlags a b c) = (regWrite k x s).withFlags a' b' c' := by
  cases k with
  | misaligned | id | status | h | v | w | k | rsvd => exact ⟨_, _, _, rfl⟩
  | cmd =>
    cases hbusy : s.busy with
    | true =>
      rw [regWrite_cmd_busy x hbusy, regWrite_cmd_busy (s := s.withFlags a b c) x hbusy]
      exact ⟨_, _, _, rfl⟩
    | false =>
      rw [regWrite_cmd_idle x hbusy, regWrite_cmd_idle (s := s.withFlags a b c) x hbusy]
      exact writeCommand_withFlags x s a b c
  | m i =>
    cases hbusy : s.busy with
    | true =>
      rw [regWrite_m_busy i x hbusy, regWrite_m_busy (s := s.withFlags a b c) i x hbusy]
      exact ⟨_, _, _, rfl⟩
    | false =>
      rw [regWrite_m_idle i x hbusy, regWrite_m_idle (s := s.withFlags a b c) i x hbusy]
      exact ⟨_, _, _, rfl⟩

/-- With a write next in the script, the step is a completion or that write, and whose move it is does not depend on the
flags. -/
theorem step_withFlags_of_write {s t : State} {off : Offset} {x : Word} {rest : List HostOp} (a b c : Bool)
    (hscript : s.script = .wr .w32 off x :: rest) (h : step s = .next t) :
    ∃ a' b' c', step (s.withFlags a b c) = .next (t.withFlags a' b' c') := by
  obtain ⟨i, hturn, hdone⟩ | ⟨_, hother, -⟩ | ⟨_, hother, -⟩ | ⟨op, rest', hturn, -, hmove⟩ | ⟨hother, -⟩ :=
    step_cases h
  · obtain ⟨u, hexec, rfl⟩ := (completion_next_iff _ _).1 hdone
    obtain ⟨a', b', c', hexec'⟩ := exec_withFlags a b c hexec
    have hturn' : (s.withFlags a b c).engineTurn i := hturn
    exact ⟨a', b', c', by rw [step_of_engineTurn hturn', hexec']; rfl⟩
  · cases hscript.symm.trans hother
  · cases hscript.symm.trans hother
  · have ⟨hop, hready, _⟩ := hturn
    cases hscript.symm.trans hop
    have hturn' : (s.withFlags a b c).hostTurn (.wr .w32 off x) rest := hturn
    obtain ⟨a', b', c', hwrite⟩ := regWrite_withFlags (classify off) x (advance s) a b c
    cases (hostWrite_of_ready off x hready).symm.trans hmove
    refine ⟨a', b', c', ?_⟩
    calc step (s.withFlags a b c) = hostWrite .w32 off x (s.withFlags a b c) := step_of_hostTurn hturn'
      _ = .next (regWrite (classify off) x ((advance s).withFlags a b c)) :=
        hostWrite_of_ready (s := s.withFlags a b c) off x hready
      _ = .next ((regWrite (classify off) x (advance s)).withFlags a' b' c') := by rw [hwrite]
  · cases hscript.symm.trans hother

/-- Settles O46: the first part flag by flag, the second by the state with other flag values, the third by the guard that
a pending command has passed. -/
theorem flagsAreStickyAndBlockNothing : Obligations.FlagsAreStickyAndBlockNothing := by
  refine ⟨?_, ?_, ?_⟩
  · exact fun s t h => ⟨step_keeps_set_flag .ill h, step_keeps_set_flag .ovr h, step_keeps_set_flag .accerr h⟩
  · rintro s t a b c _ rest hscript ⟨off, x, rfl⟩ h
    obtain ⟨a', b', c', hother⟩ := step_withFlags_of_write a b c hscript h
    exact ⟨t.withFlags a' b' c', hother, rfl⟩
  · exact fun s t i hinv hturn h => (flag_eq_iff s t).1 (completion_keeps_flags hinv hturn h)

end Sys2Proof.Machine
end

section
/-! The state after reset (10_state.md R29, 70_reset_and_hazards.md R112). -/

namespace Sys2Proof.Machine

theorem reset_engineAtReset : State.reset.engineAtReset := ⟨rfl, rfl, rfl, rfl, rfl, rfl, rfl, rfl, rfl⟩

/-- All fields of STATUS are 0 (R22): RC, the three flags, and BUSY because nothing is pending. -/
theorem statusWord_of_engineAtReset {s : State} (h : s.engineAtReset) : statusWord s = 0 := by
  obtain ⟨-, -, -, -, hrc, hpend, hill, hovr, haccerr⟩ := h
  simp [statusWord, bitWord, hrc, hill, hovr, haccerr, busy_of_pend_none hpend]

/-- Settles O42: reset leaves the engine as R29 says, its zero vectors are read word by word, and STATUS reads 0 of any
such engine. -/
theorem resetStateHasTheSpecValues : Obligations.ResetStateHasTheSpecValues := by
  obtain ⟨hh, -, -, -, hrc, hpend, hill, hovr, haccerr⟩ := reset_engineAtReset
  exact ⟨hh, fun _ => Vector.getElem_replicate, fun _ => Vector.getElem_replicate, fun _ => Vector.getElem_replicate,
    hrc, busy_of_pend_none hpend, hpend, hill, hovr, haccerr, statusWord_of_engineAtReset reset_engineAtReset⟩

end Sys2Proof.Machine
end

section
/-! The bodies of the commands (40_control.md to 43_accumulate.md): that each answers, what each leaves, and what each
writes. -/

namespace Sys2Proof.Machine

/-! ### Every command answers -/

/-- Settles O13: whether the guard holds or fails, the body answers. -/
theorem everyCommandAnswersNext : Obligations.EveryCommandAnswersNext := exec_answers_next

/-- Settles O14: the body of NOP answers the same state, and the completion only retires it. -/
theorem nopChangesNothing : Obligations.NopChangesNothing :=
  ⟨fun _ => rfl, fun _ hturn => step_of_engineTurn hturn⟩

/-- Settles O15: INIT's new values are constants, so a second INIT finds and leaves the same. -/
theorem initLoadsIvAndClears : Obligations.InitLoadsIvAndClears := fun _ =>
  ⟨_, rfl, rfl, fun _ => Vector.getElem_replicate, fun _ => Vector.getElem_replicate, fun _ => Vector.getElem_replicate,
    rfl, rfl, rfl⟩

/-! ### One round -/

/-- Settles O5: the right shift gives the bits below `32 - n`, the left shift the others. -/
theorem rotrIsTheRightRotation : Obligations.RotrIsTheRightRotation := fun x _ _ hn hn' hi => rotr_getLsbD x hn hn' hi

theorem roundT1_toNat (v : Words8) (kw ww : Word) : (roundT1 v kw ww).toNat =
    (v[7].toNat + (bigSigma1 v[4]).toNat + (ch v[4] v[5] v[6]).toNat + kw.toNat + ww.toNat) % 2 ^ 32 := by
  simp only [roundT1, BitVec.toNat_add, Nat.mod_add_mod]

theorem roundT2_toNat (v : Words8) :
    (roundT2 v).toNat = ((bigSigma0 v[0]).toNat + (maj v[0] v[1] v[2]).toNat) % 2 ^ 32 := BitVec.toNat_add ..

/-- Settles O10: the two sums given are T1 and T2 of R66, and the other words are moved one place up. -/
theorem roundFollowsItsEquations : Obligations.RoundFollowsItsEquations := by
  intro v kw ww t1 t2 ht1 ht2
  have hT1 : roundT1 v kw ww = t1 := BitVec.eq_of_toNat_eq ((roundT1_toNat v kw ww).trans ht1.symm)
  have hT2 : roundT2 v = t2 := BitVec.eq_of_toNat_eq ((roundT2_toNat v).trans ht2.symm)
  refine ⟨?_, rfl, rfl, rfl, ?_, rfl, rfl, rfl⟩
  · rw [roundFn_getElem_zero, hT1, hT2, BitVec.toNat_add]
  · rw [roundFn_getElem_four, hT1, BitVec.toNat_add]

/-! ### LOADV, ROUND and COMPRESS -/

/-- Settles O18: it is R72's two assignments. -/
theorem loadvCopiesTheHashState : Obligations.LoadvCopiesTheHashState := fun _ => rfl

theorem raise_ill_eq (s : State) : raise .ill s = { s with ill := true } := by
  simp [raise]

/-- RC is wide enough for one more round (R20). -/
theorem rc_succ_toNat {rc : BitVec 7} (h : rc.toNat < 64) : (rc + 1).toNat = rc.toNat + 1 := by
  rw [BitVec.toNat_add, Nat.mod_eq_of_lt (by simpa using by omega)]
  rfl

/-- Settles O19: below 64 the round's index is RC, and at 64 the guard fails. -/
theorem roundPerformsRoundRc : Obligations.RoundPerformsRoundRc := by
  constructor
  · rintro s n hn rfl
    exact ⟨_, exec_round_of_lt hn, rfl, rc_succ_toNat hn, rfl⟩
  · intro s hrc
    rw [exec_of_not_guardOk (by simp [guardOk, hrc]), raise_ill_eq]

/-- The rounds have no freedom: a sequence that starts at `h` and makes each round's step passes through them. -/
theorem compress_eq_of_rounds {w : Words64} {vs : Nat → Words8}
    (hvs : ∀ n (h : n < 64), vs (n + 1) = roundFn (vs n) roundConstants[n] w[n]) : compress (vs 0) w = vs 64 := by
  have hupTo : ∀ n ≤ 64, compressUpTo (vs 0) w n = vs n := by
    intro n hn
    induction n with
    | zero => exact compressUpTo_zero _ _
    | succ n ih => rw [compressUpTo_succ _ _ hn, ih (by omega), hvs n hn]
  rw [← compressUpTo_sixtyFour, hupTo 64 le_rfl]

/-- Settles O20: the rounds of R71 are the only such sequence. -/
theorem compressRunsSixtyFourRounds : Obligations.CompressRunsSixtyFourRounds := by
  intro s vs hstart hvs
  rw [← compress_eq_of_rounds hvs, hstart]
  rfl

/-! ### EXPAND -/

/-- All sums and rotations of zeros are zero, so the zero schedule obeys the recurrence. -/
theorem expand_of_zero {m : Words16} (hm : ∀ i (h : i < 16), m[i] = 0) : expand m = Vector.replicate 64 0 := by
  refine ((expandIsTheScheduleRecurrence m _).2 ⟨?_, ?_⟩).symm
  · intro i hi
    rw [Vector.getElem_replicate, hm i hi]
  · intro i hi
    simp only [Vector.getElem_replicate]
    decide

/-- Settles O16: the new W is the schedule of O9, and the schedule of zeros is zero. -/
theorem expandBuildsTheScheduleOfM : Obligations.ExpandBuildsTheScheduleOfM := by
  intro s
  obtain ⟨hprefix, hrec⟩ := (expandIsTheScheduleRecurrence s.m (expand s.m)).1 rfl
  refine ⟨_, exec_expand s, hprefix, hrec, rfl, ?_⟩
  intro hm i hi
  simp only [expand_of_zero hm, Vector.getElem_replicate]

/-! ### ACCUM and BLOCK -/

/-- Settles O21: the fold is word by word, and it leaves RC at 0, where the guard of a second ACCUM fails. -/
theorem accumFoldsVIntoH : Obligations.AccumFoldsVIntoH := by
  have hrejected (s : State) (hrc : s.rc.toNat ≠ 64) : exec .accum s = .next { s with ill := true } := by
    rw [exec_of_not_guardOk (by simp [guardOk, hrc]), raise_ill_eq]
  refine ⟨fun s hrc => ⟨_, exec_accum_of_eq hrc, ?_, rfl, rfl, hrejected _ (by simp)⟩, hrejected⟩
  exact accumulateAddsWordByWord s.h s.v

/-- Settles O22: BLOCK in one record update, its three parts each as its own rule says. -/
theorem blockProcessesOneBlock : Obligations.BlockProcessesOneBlock := by
  intro s
  obtain ⟨hprefix, hrec⟩ := (expandIsTheScheduleRecurrence s.m (expand s.m)).1 rfl
  refine ⟨_, exec_block s, hprefix, hrec, ?_, fun j hj => accumulate_getElem s.h _ hj, rfl, rfl⟩
  intro vs hstart hvs
  rw [← compress_eq_of_rounds hvs, hstart]

/-! ### What a command writes -/

/-- Settles O23: command by command; one that fails its guard has written ILL only. -/
theorem commandsWriteOnlyTheirRegisters : Obligations.CommandsWriteOnlyTheirRegisters := by
  intro i s t h
  obtain ⟨hguard, -, rfl⟩ | ⟨rfl, rfl⟩ | ⟨rfl, rfl⟩ | ⟨rfl, rfl⟩ | ⟨rfl, rfl⟩ | ⟨rfl, -, rfl⟩ | ⟨rfl, rfl⟩ |
    ⟨rfl, -, rfl⟩ | ⟨rfl, rfl⟩ := exec_cases h
  case inl => simp [hguard]
  all_goals simp

/-- PEND and the model's own fields are as before. -/
structure SameControl (s t : State) : Prop where
  pend : t.pend = s.pend
  inReset : t.inReset = s.inReset
  delay : t.delay = s.delay
  issues : t.issues = s.issues
  draws : t.draws = s.draws
  script : t.script = s.script
  observed : t.observed = s.observed

theorem sameControl_of_exec {i : Instr} {s t : State} (h : exec i s = .next t) : SameControl s t := by
  obtain ⟨-, -, -, -, -, -, -, -, hpend, hreset, hdelay, hissues, hdraws, hscript, hobserved⟩ :=
    commandsWriteOnlyTheirRegisters i s t h
  exact ⟨hpend, hreset, hdelay, hissues, hdraws, hscript, hobserved⟩

/-- RC after a command that passed its guard (R20). -/
theorem rc_of_exec {i : Instr} {s t : State} (h : exec i s = .next t) (hguard : guardOk i s.rc = true) :
    (i = .loadv ∨ i = .init ∨ i = .accum ∨ i = .block → t.rc.toNat = 0) ∧
    (i = .round → t.rc.toNat = s.rc.toNat + 1) ∧ (i = .compress → t.rc.toNat = 64) ∧
    (i = .nop ∨ i = .expand → t.rc = s.rc) := by
  obtain ⟨hfails, -, -⟩ | ⟨rfl, rfl⟩ | ⟨rfl, rfl⟩ | ⟨rfl, rfl⟩ | ⟨rfl, rfl⟩ | ⟨rfl, hlt, rfl⟩ | ⟨rfl, rfl⟩ |
    ⟨rfl, -, rfl⟩ | ⟨rfl, rfl⟩ := exec_cases h
  case inl => exact absurd (hguard.symm.trans hfails) (by decide)
  case inr.inr.inr.inr.inr.inl => exact ⟨by simp, fun _ => rc_succ_toNat hlt, by simp, by simp⟩
  all_goals simp

/-! ### What a command reads -/

/-- The registers that commands compute with are the same. -/
structure SameData (s t : State) : Prop where
  h : s.h = t.h
  v : s.v = t.v
  w : s.w = t.w
  m : s.m = t.m
  rc : s.rc = t.rc

/-- The registers and flags of `s`, with PEND and the model's own fields of `o`. -/
def State.withControl (s o : State) : State :=
  { o with
    h := s.h, v := s.v, w := s.w, m := s.m, rc := s.rc, ill := s.ill, ovr := s.ovr, accerr := s.accerr }

/-- A command neither reads nor writes PEND and the model's own fields. -/
theorem exec_withControl {i : Instr} {s t : State} (o : State) (h : exec i s = .next t) :
    exec i (s.withControl o) = .next (t.withControl o) := by
  obtain ⟨hguard, -, rfl⟩ | ⟨rfl, rfl⟩ | ⟨rfl, rfl⟩ | ⟨rfl, rfl⟩ | ⟨rfl, rfl⟩ | ⟨rfl, hrc, rfl⟩ | ⟨rfl, rfl⟩ |
    ⟨rfl, hrc, rfl⟩ | ⟨rfl, rfl⟩ := exec_cases h
  exacts [exec_of_not_guardOk (s := s.withControl o) hguard, rfl, rfl, rfl, rfl,
    exec_round_of_lt (s := s.withControl o) hrc, rfl, exec_accum_of_eq (s := s.withControl o) hrc, rfl]

/-- What a command computes, it computes from those registers: the flags and the rest can be any. -/
theorem exec_of_sameData {i : Instr} {s s' t : State} (hsame : SameData s s') (h : exec i s = .next t) :
    ∃ t', exec i s' = .next t' ∧ SameData t t' := by
  obtain ⟨a, b, c, hflags⟩ := exec_withFlags s'.ill s'.ovr s'.accerr h
  have hs' : (s.withFlags s'.ill s'.ovr s'.accerr).withControl s' = s' := by
    obtain ⟨hh, hv, hw, hm, hrc⟩ := hsame
    simp only [State.withControl, State.withFlags, hh, hv, hw, hm, hrc]
  have hboth := exec_withControl s' hflags
  rw [hs'] at hboth
  exact ⟨_, hboth, rfl, rfl, rfl, rfl, rfl⟩

theorem execAll_of_sameData {is : List Instr} {s s' t : State} (hsame : SameData s s')
    (h : execAll is s = .next t) : ∃ t', execAll is s' = .next t' ∧ SameData t t' := by
  induction is generalizing s s' with
  | nil =>
    cases h
    exact ⟨s', rfl, hsame⟩
  | cons i is ih =>
    obtain ⟨u, hu⟩ := exec_answers_next i s
    obtain ⟨u', hu', hsame'⟩ := exec_of_sameData hsame hu
    rw [execAll_cons_of_next hu] at h
    rw [execAll_cons_of_next hu']
    exact ih hsame' h

/-- Settles O28: after INIT the two states have the same data, and every command keeps that. -/
theorem initForgetsTheHistory : Obligations.InitForgetsTheHistory := by
  intro s s' t t' is h h'
  obtain ⟨u, hu⟩ := exec_answers_next .init s
  obtain ⟨u', hu'⟩ := exec_answers_next .init s'
  have hsame : SameData u u' := by
    cases hu
    cases hu'
    exact ⟨rfl, rfl, rfl, rfl, rfl⟩
  rw [execAll_cons_of_next hu] at h
  rw [execAll_cons_of_next hu'] at h'
  obtain ⟨v, hv, hh, hv', hw, hm, hrc⟩ := execAll_of_sameData hsame h
  cases hv.symm.trans h'
  exact ⟨hh, hv', hw, hm, hrc⟩

end Sys2Proof.Machine
end

section
/-! What a host access can do, said once (20_memory.md R46, R122), and with it the invariant of every step. -/

namespace Sys2Proof.Machine

/-! ### The effect of a host access -/

/-- What an access did to M and PEND: nothing, or, while nothing was pending, it stored a word in M or issued a command
that passes its guard. -/
inductive AccessEffect (op : HostOp) (s t : State) : Prop
  | keeps (hm : t.m = s.m) (hpend : t.pend = s.pend) (hdelay : t.delay = s.delay - 1)
  | stores (i : Fin 16) (off : Offset) (x : Word) (hop : op = .wr .w32 off x) (hclass : classify off = .m i)
      (hidle : s.pend = none) (hpend : t.pend = none) (hdelay : t.delay = s.delay - 1)
  | issues (i : Instr) (hidle : s.pend = none) (hm : t.m = s.m) (hpend : t.pend = some i)
      (hguard : guardOk i s.rc = true)

/-- No access writes H, V, W or RC; what else it may do is its effect. -/
theorem hostMove_effect {op : HostOp} {s t : State} (hreset : op.isReset = false) (h : hostMove op s = .next t) :
    t.h = s.h ∧ t.v = s.v ∧ t.w = s.w ∧ t.rc = s.rc ∧ t.inReset = false ∧ AccessEffect op s t := by
  obtain ⟨hready, ⟨off, -, rfl⟩ | ⟨off, x, rfl, rfl⟩ | ⟨off, x, -, -, rfl⟩ | ⟨-, rfl | rfl⟩⟩ := hostMove_cases hreset h
  case inr.inl =>
    obtain ⟨f, hw⟩ | ⟨-, hw⟩ | ⟨i, hclass, hidle, hw⟩ | ⟨i, -, hidle, hlegal, hw⟩ :=
      regWrite_cases (classify off) x (advance s)
    · rw [hw]
      exact ⟨rfl, rfl, rfl, rfl, hready, .keeps rfl rfl rfl⟩
    · rw [hw]
      exact ⟨rfl, rfl, rfl, rfl, hready, .keeps rfl rfl rfl⟩
    · rw [hw]
      exact ⟨rfl, rfl, rfl, rfl, hready, .stores i off x rfl hclass hidle hidle rfl⟩
    · rw [hw]
      exact ⟨rfl, rfl, rfl, rfl, hready, .issues i hidle rfl rfl (legalCommand_eq_some hlegal).2⟩
  all_goals exact ⟨by simp, by simp, by simp, by simp, by simp [hready], .keeps (by simp) (by simp) (by simp)⟩

/-! ### The invariant -/

/-- RC stays in 0..64 over a command (R20). -/
theorem exec_keeps_rc_le {i : Instr} {s t : State} (h : exec i s = .next t) (hrc : s.rc.toNat ≤ 64) :
    t.rc.toNat ≤ 64 := by
  obtain ⟨-, -, rfl⟩ | ⟨-, rfl⟩ | ⟨-, rfl⟩ | ⟨-, rfl⟩ | ⟨-, rfl⟩ | ⟨-, hlt, rfl⟩ | ⟨-, rfl⟩ | ⟨-, -, rfl⟩ | ⟨-, rfl⟩ :=
    exec_cases h
  exacts [hrc, hrc, Nat.zero_le 64, hrc, Nat.zero_le 64, ((BitVec.toNat_add ..).trans_le (Nat.mod_le ..)).trans hlt,
    Nat.le_refl 64, Nat.zero_le 64, Nat.zero_le 64]

theorem engineAtReset_engineReset (s : State) : (engineReset s).engineAtReset :=
  ⟨rfl, rfl, rfl, rfl, rfl, rfl, rfl, rfl, rfl⟩

theorem inv_engineReset (s : State) : (engineReset s).Inv :=
  ⟨Nat.zero_le _, rfl, fun _ => rfl, fun _ => engineAtReset_engineReset s⟩

/-- With nothing pending and reset released, the invariant is about RC and the latency left over. -/
theorem inv_of_idle {s : State} (hrc : s.rc.toNat ≤ 64) (hpend : s.pend = none) (hdelay : s.delay = 0)
    (hready : s.inReset = false) : s.Inv :=
  ⟨hrc, by simp [hpend], fun _ => hdelay, by simp [hready]⟩

/-- An access that leaves RC and PEND keeps the invariant: the latency counter only falls. -/
theorem inv_of_keeps_command {s t : State} (hinv : s.Inv) (hrc : t.rc = s.rc) (hpend : t.pend = s.pend)
    (hdelay : t.delay = s.delay - 1) (hready : t.inReset = false) : t.Inv := by
  obtain ⟨hle, hpassed, hleft, -⟩ := hinv
  refine ⟨hrc ▸ hle, by rw [hpend, hrc]; exact hpassed, ?_, by simp [hready]⟩
  intro hnone
  rw [hdelay, hleft (hpend ▸ hnone)]

theorem hostMove_keeps_inv {op : HostOp} {s t : State} (hinv : s.Inv) (hreset : op.isReset = false)
    (h : hostMove op s = .next t) : t.Inv := by
  obtain ⟨-, -, -, hrc, hready, heffect⟩ := hostMove_effect hreset h
  cases heffect with
  | keeps _ hpend hdelay => exact inv_of_keeps_command hinv hrc hpend hdelay hready
  | stores _ _ _ _ _ hidle hpend hdelay =>
    exact inv_of_keeps_command hinv hrc (hpend.trans hidle.symm) hdelay hready
  | issues i _ _ hpend hguard =>
    obtain ⟨hle, -⟩ := hinv
    exact ⟨hrc ▸ hle, by simpa [hpend, hrc] using hguard, by simp [hpend], by simp [hready]⟩

/-- Settles O45: a completion leaves nothing pending, a reset event leaves the reset values, and an access keeps what
the invariant speaks of or issues a command that its guard lets pass. -/
theorem everyStepKeepsTheInvariant : Obligations.EveryStepKeepsTheInvariant := by
  intro s t hinv h
  have ⟨hle, _⟩ := hinv
  obtain ⟨i, ⟨-, hready, -⟩, hdone⟩ | ⟨rest, -, rfl⟩ | ⟨rest, -, rfl⟩ | ⟨op, rest, -, hop, hmove⟩ | ⟨-, -, rfl⟩ :=
    step_cases h
  · obtain ⟨u, hexec, rfl⟩ := (completion_next_iff _ _).1 hdone
    have hrc : u.rc.toNat ≤ 64 := exec_keeps_rc_le hexec hle
    exact inv_of_idle hrc rfl rfl ((sameControl_of_exec hexec).inReset.trans hready)
  · exact inv_engineReset _
  · cases hasserted : s.inReset with
    | true => simpa [resetRelease, hasserted] using inv_engineReset _
    | false =>
      rw [resetRelease_of_not_asserted hasserted]
      exact inv_of_keeps_command hinv rfl rfl rfl hasserted
  · exact hostMove_keeps_inv hinv hop hmove
  · exact hinv

end Sys2Proof.Machine
end

section
/-! The register window (20_memory.md R31 to R41): which offsets a class covers, what a read observes, and what a write
does in each class. -/

namespace Sys2Proof.Machine

/-! ### Classes -/

/-- The offsets of a class, by the register map of R31. -/
def RegClass.covers (c : RegClass) (n : Nat) : Prop :=
  match c with
  | .misaligned => n % 4 ≠ 0
  | .id => n = 0x000
  | .cmd => n = 0x004
  | .status => n = 0x008
  | .m i => n = 0x040 + 4 * i.val
  | .h j => n = 0x080 + 4 * j.val
  | .v j => n = 0x0A0 + 4 * j.val
  | .w i => n = 0x100 + 4 * i.val
  | .k i => n = 0x200 + 4 * i.val
  | .rsvd => n % 4 = 0 ∧ ((0x00C ≤ n ∧ n ≤ 0x03C) ∨ (0x0C0 ≤ n ∧ n ≤ 0x0FC) ∨ 0x300 ≤ n)

theorem classify_covers (off : Offset) : (classify off).covers off.toNat := by
  obtain ⟨hc, hn⟩ | ⟨hc, hn⟩ | ⟨hc, hn⟩ | ⟨hc, hn⟩ | ⟨i, hc, hn⟩ | ⟨i, hc, hn⟩ | ⟨i, hc, hn⟩ | ⟨i, hc, hn⟩ |
    ⟨i, hc, hn⟩ | ⟨hc, hn⟩ := classify_cases off
  all_goals
    rw [hc]
    exact hn

/-- No offset is in two classes: their ranges are apart, and within an array the offset gives the index. -/
theorem covers_unique {c c' : RegClass} {n : Nat} (h : c.covers n) (h' : c'.covers n) : c = c' := by
  cases c <;> cases c' <;> simp only [RegClass.covers] at h h' <;>
    simp only [reduceCtorEq, RegClass.m.injEq, RegClass.h.injEq, RegClass.v.injEq, RegClass.w.injEq, RegClass.k.injEq,
      Fin.ext_iff] <;> omega

theorem classify_eq_iff (off : Offset) (c : RegClass) : classify off = c ↔ c.covers off.toNat := by
  constructor
  · rintro rfl
    exact classify_covers off
  · exact covers_unique (classify_covers off)

/-- Settles O29: each clause is the range of its class. -/
theorem offsetClassesFollowTheRegisterMap : Obligations.OffsetClassesFollowTheRegisterMap := fun off =>
  ⟨classify_eq_iff off .misaligned, classify_eq_iff off .id, classify_eq_iff off .cmd, classify_eq_iff off .status,
    fun i => classify_eq_iff off (.m i), fun j => classify_eq_iff off (.h j), fun j => classify_eq_iff off (.v j),
    fun i => classify_eq_iff off (.w i), fun i => classify_eq_iff off (.k i), classify_eq_iff off .rsvd⟩

/-! ### The word of STATUS -/

/-- A word below `2^8` beside one shifted above it is a sum. -/
theorem shiftLeft_or_toNat (rc : BitVec 7) {x : Word} (hx : x.toNat < 2 ^ 8) :
    ((rc.setWidth 32 <<< 8) ||| x).toNat = rc.toNat * 2 ^ 8 + x.toNat := by
  have hrc := rc.isLt
  have hshift : (rc.setWidth 32 <<< 8 : Word).toNat = rc.toNat <<< 8 := by
    rw [BitVec.toNat_shiftLeft, BitVec.toNat_setWidth, Nat.mod_eq_of_lt (a := rc.toNat) (by omega), Nat.shiftLeft_eq,
      Nat.mod_eq_of_lt (by omega)]
  rw [BitVec.toNat_or, hshift, ← Nat.shiftLeft_add_eq_or_of_lt hx, Nat.shiftLeft_eq]

/-- The five fields of STATUS as one number (R22). -/
theorem statusWord_toNat (s : State) : (statusWord s).toNat =
    s.rc.toNat * 2 ^ 8 + (s.accerr.toNat * 8 + s.ovr.toNat * 4 + s.ill.toNat * 2 + s.busy.toNat) := by
  have hlow (a o i b : Bool) : (bitWord a <<< 3 ||| (bitWord o <<< 2 ||| (bitWord i <<< 1 ||| bitWord b))).toNat =
      a.toNat * 8 + o.toNat * 4 + i.toNat * 2 + b.toNat := by
    revert a o i b
    decide
  simp only [statusWord, BitVec.or_assoc]
  rw [shiftLeft_or_toNat, hlow]
  rw [hlow]
  have := s.accerr.toNat_le
  have := s.ovr.toNat_le
  have := s.ill.toNat_le
  have := s.busy.toNat_le
  omega

theorem getLsbD_eq_true_iff {n : Nat} (x : BitVec n) (i : Nat) : x.getLsbD i = true ↔ x.toNat / 2 ^ i % 2 = 1 := by
  rw [BitVec.getLsbD, Nat.testBit_eq_decide_div_mod_eq, decide_eq_true_eq]

theorem extractLsb'_toNat_eq {n : Nat} (x : BitVec n) (k m : Nat) :
    (x.extractLsb' k m).toNat = x.toNat / 2 ^ k % 2 ^ m := by
  rw [BitVec.extractLsb'_toNat, Nat.shiftRight_eq_div_pow]

/-- Settles O37: each field is a digit of the number that STATUS reads. -/
theorem statusWordHasItsFields : Obligations.StatusWordHasItsFields := by
  intro s
  have hrc := s.rc.isLt
  have hword := statusWord_toNat s
  have ha := s.accerr.toNat_le
  have ho := s.ovr.toNat_le
  have hi := s.ill.toNat_le
  have hb := s.busy.toNat_le
  have hbit {b : Bool} {k : Nat} (h : (statusWord s).toNat / 2 ^ k % 2 = b.toNat) : (statusWord s).getLsbD k = b := by
    rw [Bool.eq_iff_iff, getLsbD_eq_true_iff, h, Bool.toNat_eq_one]
  have hfield {k m : Nat} {y : BitVec m} (h : (statusWord s).toNat / 2 ^ k % 2 ^ m = y.toNat) :
      (statusWord s).extractLsb' k m = y := BitVec.eq_of_toNat_eq ((extractLsb'_toNat_eq ..).trans h)
  refine ⟨?_, hbit (by omega), hbit (by omega), hbit (by omega), hfield (show _ = 0 by omega), hfield (by omega),
    hfield (show _ = 0 by omega)⟩
  rw [hbit (b := s.busy) (by omega), State.busy, Option.isSome_iff_ne_none]

/-! ### Reads -/

theorem step_read {s : State} {off : Offset} {rest : List HostOp} (hturn : s.hostTurn (.rd .w32 off) rest) :
    step s = .next (observe (readValue (classify off) s) (afterRead (classify off) (advance s))) := by
  have ⟨_, hready, _⟩ := hturn
  exact (step_of_hostTurn hturn).trans (hostRead_of_ready off hready)

theorem advance_eq {s : State} {op : HostOp} {rest : List HostOp} (hscript : s.script = op :: rest) :
    advance s = { s with script := rest, delay := s.delay - 1 } := by
  rw [advance, hscript, List.tail_cons]

theorem afterRead_of_known {c : RegClass} {s : State} (h : (c.isData && s.busy) = false) : afterRead c s = s :=
  if_neg (by simp [h])

theorem afterRead_of_free {c : RegClass} {s : State} (h : (c.isData && s.busy) = true) :
    afterRead c s = { s with draws := s.draws + 1 } := if_pos h

/-- A read whose value is no free one leaves the script and adds its word, and does nothing else. -/
theorem step_read_known {s : State} {off : Offset} {rest : List HostOp} (hturn : s.hostTurn (.rd .w32 off) rest)
    (hknown : ((classify off).isData && s.busy) = false) : step s = .next { s with
      script := rest, delay := s.delay - 1, observed := s.observed ++ [readValue (classify off) s] } := by
  have ⟨hscript, _⟩ := hturn
  rw [step_read hturn, afterRead_of_known (s := advance s) hknown, advance_eq hscript]
  rfl

/-- Settles O30: the observed word is the value of the offset's class, and an idle engine's values are its registers. -/
theorem idleReadObservesTheRegister : Obligations.IdleReadObservesTheRegister := by
  refine ⟨by decide, ?_⟩
  intro s off rest hturn hpend
  have hbusy : s.busy = false := busy_of_pend_none hpend
  have hvalue (c : RegClass) (hcovers : c.covers off.toNat) : readValue (classify off) s = readValue c s := by
    rw [(classify_eq_iff off c).2 hcovers]
  refine ⟨_, step_read_known hturn (by simp [hbusy]), hvalue .misaligned, hvalue .id, hvalue .cmd, ?_, ?_, ?_, ?_, ?_,
    fun i => hvalue (.k i), fun haligned hgap => hvalue .rsvd ⟨haligned, hgap⟩⟩
  · intro hoff
    rw [hvalue .status hoff]
    exact (statusWord_toNat s).trans (by simp [hbusy]; omega)
  · exact fun i hoff => (hvalue (.m i) hoff).trans (by simp [readValue, hbusy])
  · exact fun i hoff => (hvalue (.h i) hoff).trans (by simp [readValue, hbusy])
  · exact fun i hoff => (hvalue (.v i) hoff).trans (by simp [readValue, hbusy])
  · exact fun i hoff => (hvalue (.w i) hoff).trans (by simp [readValue, hbusy])

/-- The offsets whose reads BUSY makes unspecified (R41). -/
theorem isData_classify_iff (off : Offset) : (classify off).isData = true ↔
    off.toNat % 4 = 0 ∧ ((0x040 ≤ off.toNat ∧ off.toNat < 0x0C0) ∨ (0x100 ≤ off.toNat ∧ off.toNat < 0x200)) := by
  have hcovers := classify_covers off
  cases hc : classify off <;> rw [hc] at hcovers <;> simp only [RegClass.covers] at hcovers <;>
    simp only [RegClass.isData, Bool.false_eq_true, false_iff, true_iff] <;> omega

/-- While BUSY is 1 a data register's value is the next draw. -/
theorem readValue_data_busy {c : RegClass} {s : State} (hdata : c.isData = true) (hbusy : s.busy = true) :
    readValue c s = Config.draw s.draws := by
  cases c with
  | m i | h i | v i | w i => exact if_pos hbusy
  | misaligned | id | cmd | status | k i | rsvd => cases hdata

/-- Outside the data registers BUSY matters to STATUS only, which shows it in bit 0. -/
theorem readValue_known_busy {c : RegClass} {s : State} (hdata : c.isData = false) (hbusy : s.busy = true) :
    readValue c s = readValue c { s with pend := none } ||| (if c = .status then 1 else 0) := by
  cases c with
  | m i | h i | v i | w i => cases hdata
  | misaligned | id | cmd | k i | rsvd => exact (BitVec.or_zero ..).symm
  | status =>
    simp [readValue, statusWord, hbusy, bitWord]

/-- Settles O31: the two clauses are the classes with and without free values. -/
theorem busyReadOfDataIsUnspecified : Obligations.BusyReadOfDataIsUnspecified := by
  intro s off rest i hturn hpend
  have hbusy : s.busy = true := busy_of_pend_some hpend
  have ⟨hscript, _⟩ := hturn
  rw [← isData_classify_iff]
  constructor
  · intro hdata
    have hfree : ((classify off).isData && (advance s).busy) = true := by simp [hdata, hbusy]
    rw [step_read hturn, readValue_data_busy hdata hbusy, afterRead_of_free hfree, advance_eq hscript]
    rfl
  · intro hdata
    have hknown : (classify off).isData = false := by simpa using hdata
    have hstatus : classify off = .status ↔ off = 0x008 :=
      ⟨eq_of_classify_status, fun h => h ▸ classify_offStatus⟩
    rw [step_read_known hturn (by simp [hknown]), readValue_known_busy hknown hbusy]
    simp only [hstatus]

end Sys2Proof.Machine
end

section
/-! Register writes (20_memory.md R34 to R36, 60_exceptions.md R101): one rule for the step, and the effect in each
class of offsets. -/

namespace Sys2Proof.Machine

theorem step_write {s : State} {off : Offset} {x : Word} {rest : List HostOp}
    (hturn : s.hostTurn (.wr .w32 off x) rest) : step s = .next (regWrite (classify off) x (advance s)) := by
  have ⟨_, hready, _⟩ := hturn
  exact (step_of_hostTurn hturn).trans (hostWrite_of_ready off x hready)

/-! ### Writes that raise a flag -/

/-- The classes that no write reaches raise ACCERR (R36). -/
theorem regWrite_of_not_writable {c : RegClass} (x : Word) (s : State) (hcmd : c ≠ .cmd) (hstatus : c ≠ .status)
    (hm : ∀ i, c ≠ .m i) : regWrite c x s = raise .accerr s := by
  cases c with
  | cmd => exact absurd rfl hcmd
  | status => exact absurd rfl hstatus
  | m i => exact absurd rfl (hm i)
  | misaligned | id | h | v | w | k | rsvd => rfl

/-- Settles O33: the offsets named are those of no writable class. -/
theorem writeToBadTargetRaisesAccerrOnly : Obligations.WriteToBadTargetRaisesAccerrOnly := by
  intro s off x rest hturn hbad
  have ⟨hscript, _⟩ := hturn
  rw [step_write hturn, regWrite_of_not_writable x _ (c := classify off), advance_eq hscript]
  · simp [raise]
  · rw [ne_eq, classify_eq_iff, RegClass.covers]
    omega
  · rw [ne_eq, classify_eq_iff, RegClass.covers]
    omega
  · intro i
    rw [ne_eq, classify_eq_iff, RegClass.covers]
    omega

theorem regWrite_busy {c : RegClass} (x : Word) {s : State} (hc : c = .cmd ∨ ∃ i, c = .m i) (hbusy : s.busy = true) :
    regWrite c x s = raise .ovr s := by
  obtain rfl | ⟨i, rfl⟩ := hc
  · exact regWrite_cmd_busy x hbusy
  · exact regWrite_m_busy i x hbusy

/-- Settles O34: the offsets named are CMD and M, whose writes are dropped while BUSY is 1. -/
theorem busyWriteToCmdOrMRaisesOvrOnly : Obligations.BusyWriteToCmdOrMRaisesOvrOnly := by
  intro s off x rest i hturn hpend hoff
  have ⟨hscript, _⟩ := hturn
  have hclass : classify off = .cmd ∨ ∃ j, classify off = .m j := by
    simp only [classify_eq_iff]
    exact hoff
  have hbusy : (advance s).busy = true := busy_of_pend_some (s := advance s) hpend
  rw [step_write hturn, regWrite_busy x hclass hbusy, advance_eq hscript]
  simp [raise]

/-- Only the raising of a flag sets it. -/
theorem regWrite_eq_raise_of_newly_set {f : Flag} {c : RegClass} {x : Word} {s : State} (hclear : s.flag f = false)
    (hset : (regWrite c x s).flag f = true) : regWrite c x s = raise f s := by
  obtain ⟨g, h⟩ | ⟨-, h⟩ | ⟨i, -, -, h⟩ | ⟨i, -, -, -, h⟩ := regWrite_cases c x s
  case inl =>
    have hgf : g = f := by simpa [h, hclear] using hset
    rw [h, hgf]
  all_goals simp [h, hclear] at hset

/-- A write that sets a flag that was clear raises that one and does nothing else. -/
theorem step_write_raises {f : Flag} {s t : State} {off : Offset} {x : Word} {rest : List HostOp}
    (hturn : s.hostTurn (.wr .w32 off x) rest) (h : step s = .next t) (hclear : s.flag f = false)
    (hset : t.flag f = true) : t = raise f { s with script := rest, delay := s.delay - 1 } := by
  have ⟨hscript, _⟩ := hturn
  rw [step_write hturn] at h
  cases h
  rw [regWrite_eq_raise_of_newly_set (by simpa using hclear) hset, advance_eq hscript]

/-- Settles O40: the state after the write is `raise` of the one flag. -/
theorem oneWriteRaisesAtMostOneFlag : Obligations.OneWriteRaisesAtMostOneFlag := by
  intro s t off x rest hturn h
  have hraise {f : Flag} (hf : s.flag f = false ∧ t.flag f = true) := step_write_raises hturn h hf.1 hf.2
  refine ⟨fun hill => ?_, fun hovr => ?_, fun haccerr => ?_, ?_⟩
  · rw [hraise (f := .ill) hill]
    exact ⟨Bool.or_false _, Bool.or_false _⟩
  · rw [hraise (f := .ovr) hovr]
    exact ⟨Bool.or_false _, Bool.or_false _⟩
  · rw [hraise (f := .accerr) haccerr]
    exact ⟨Bool.or_false _, Bool.or_false _⟩
  · rintro (hill | hovr | haccerr)
    · rw [hraise (f := .ill) hill]
      rfl
    · rw [hraise (f := .ovr) hovr]
      rfl
    · rw [hraise (f := .accerr) haccerr]
      rfl

/-! ### Writes that take effect -/

/-- A write to M while idle, in one record update. -/
theorem step_mWrite_idle {s : State} {off : Offset} {x : Word} {rest : List HostOp} {i : Fin 16}
    (hturn : s.hostTurn (.wr .w32 off x) rest) (hpend : s.pend = none) (hclass : classify off = .m i) :
    step s = .next { s with script := rest, delay := s.delay - 1, m := s.m.set i.val x i.isLt } := by
  have ⟨hscript, _⟩ := hturn
  rw [step_write hturn, hclass, regWrite_m_idle i x (busy_of_pend_none (s := advance s) hpend), advance_eq hscript]
  rfl

/-- Settles O35: the new M is the old one with one word set. -/
theorem idleWriteToMStoresTheWord : Obligations.IdleWriteToMStoresTheWord := by
  intro s off x rest i hturn hpend hoff
  refine ⟨_, step_mWrite_idle hturn hpend ((classify_eq_iff off (.m i)).2 hoff), ?_, ?_, ?_⟩
  · exact Vector.getElem_set_self ..
  · exact fun j hj => Vector.getElem_set_ne _ _ (by simpa [Fin.ext_iff, eq_comm] using hj)
  · exact Vector.set_set ..

/-- A write to STATUS, idle or BUSY. -/
theorem step_statusWrite {s : State} {x : Word} {rest : List HostOp} (hturn : s.hostTurn (.wr .w32 0x008 x) rest) :
    step s = .next (clearFlags x { s with script := rest, delay := s.delay - 1 }) := by
  have ⟨hscript, _⟩ := hturn
  have hclass : classify 0x008 = .status := classify_offStatus
  rw [step_write hturn, hclass, advance_eq hscript]
  rfl

/-- Settles O36: the write to STATUS is `clearFlags`, flag by flag. -/
theorem statusWriteClearsChosenFlags : Obligations.StatusWriteClearsChosenFlags := by
  intro s x rest hturn
  exact ⟨_, step_statusWrite hturn, rfl, by simp, by simp, by simp⟩

/-- The guards of R53. -/
theorem guardOk_iff (i : Instr) (rc : BitVec 7) :
    guardOk i rc = true ↔ (i = .round → rc.toNat < 64) ∧ (i = .accum → rc.toNat = 64) := by
  cases i <;> simp [guardOk]

theorem legalCommand_encode {i : Instr} {rc : BitVec 7} (h : guardOk i rc = true) :
    legalCommand (encode i) rc = some i := by
  simp [legalCommand, h]

/-- A legal CMD write while idle, in one record update. -/
theorem step_cmdWrite_legal {s : State} {i : Instr} {rest : List HostOp}
    (hturn : s.hostTurn (.wr .w32 0x004 (encode i)) rest) (hpend : s.pend = none) (hguard : guardOk i s.rc = true) :
    step s = .next { s with
      script := rest, pend := some i, delay := Config.latency i s.issues, issues := s.issues + 1 } := by
  have ⟨hscript, _⟩ := hturn
  rw [step_cmdWrite_idle hturn hpend, writeCommand_legal (s := advance s) (legalCommand_encode hguard),
    advance_eq hscript]
  rfl

/-- Settles O4: the guard holds outside the two cases, and in them and for a reserved word the word is not legal. -/
theorem commandWriteIssuesExactlyLegalWords : Obligations.CommandWriteIssuesExactlyLegalWords := by
  intro s x rest hturn hpend hrc
  constructor
  · rintro i rfl hround haccum
    refine step_cmdWrite_legal hturn hpend ((guardOk_iff i s.rc).2 ⟨fun hi => ?_, fun hi => ?_⟩)
    · have hne : s.rc.toNat ≠ 64 := fun h => hround ⟨hi, h⟩
      omega
    · exact not_not.1 fun hne => haccum ⟨hi, hne⟩
  · intro hbad
    apply step_illegalCmdWrite hturn hpend
    obtain hrsv | hop | ⟨rfl, hfull⟩ | ⟨rfl, hpartial⟩ := hbad
    · exact legalCommand_of_reserved s.rc ((reserved_iff x).1 (.inl hrsv))
    · exact legalCommand_of_reserved s.rc ((reserved_iff x).1 (.inr hop))
    · exact legalCommand_of_not_guardOk (i := .round) (by simp [guardOk, hfull])
    · exact legalCommand_of_not_guardOk (i := .accum) (by simp [guardOk, hpartial])

/-! ### Command words and accesses that have no effect -/

/-- Settles O2: ten words of the format, each decoded. -/
theorem specCommandWordsDecode : Obligations.SpecCommandWordsDecode := by
  refine ⟨rfl, rfl, rfl, rfl, rfl, rfl, rfl, rfl, ?_⟩
  exact congrArg Except.toOption (decode_encode .accum)

theorem accessRefusal_of_width {width : Width} {s : State} (hready : s.inReset = false) (hwidth : width ≠ .w32) :
    accessRefusal width s = some .accessWidth := by
  simp [accessRefusal, hready, hwidth]

theorem accessRefusal_inReset (width : Width) {s : State} (hasserted : s.inReset = true) :
    accessRefusal width s = some .accessDuringReset := if_pos hasserted

/-- Every access asks `accessRefusal` first, which names the reset. -/
theorem hostMove_inReset {op : HostOp} {s : State} (hreset : op.isReset = false) (hasserted : s.inReset = true) :
    hostMove op s = .refused .accessDuringReset := by
  cases op with
  | rd width off => rw [hostMove, hostRead, accessRefusal_inReset width hasserted]
  | wr width off x => rw [hostMove, hostWrite, accessRefusal_inReset width hasserted]
  | expect off x => rw [hostMove, hostExpect, accessRefusal_inReset .w32 hasserted]
  | wait => rw [hostMove, hostPoll, accessRefusal_inReset .w32 hasserted]
  | assertReset | releaseReset => cases hreset

/-- Settles O41: on the host's turn reset is not asserted and the width is what is refused; while it is asserted the
host moves and is refused for that. -/
theorem accessesOutsideTheInterfaceAreRefused : Obligations.AccessesOutsideTheInterfaceAreRefused := by
  constructor
  · intro s width off x op rest hwidth hop hturn
    have ⟨_, hready, _⟩ := hturn
    have hrefused := accessRefusal_of_width hready hwidth
    rw [step_of_hostTurn hturn]
    obtain rfl | rfl := hop
    · rw [hostMove, hostRead, hrefused]
    · rw [hostMove, hostWrite, hrefused]
  · intro s op rest hscript hasserted hreset
    rw [step_of_reset hscript (.inr hasserted), hostMove_inReset hreset hasserted]

end Sys2Proof.Machine
end

section
/-! What every step keeps (10_state.md §2, §3, 70_reset_and_hazards.md §1): RC, reset, and the writers of each
register. -/

namespace Sys2Proof.Machine

/-! ### Reset -/

/-- Settles O44: nothing is pending, RC and the latency are 0, and reset is not asserted. -/
theorem resetSatisfiesTheInvariant : Obligations.ResetSatisfiesTheInvariant :=
  inv_of_idle (Nat.zero_le 64) rfl rfl rfl

/-- An assertion goes before a completion that is due (R113). -/
theorem step_assertReset {s : State} {rest : List HostOp} (hscript : s.script = .assertReset :: rest) :
    step s = .next (resetAssert s) := step_of_reset hscript (.inl rfl)

theorem step_releaseReset {s : State} {rest : List HostOp} (hscript : s.script = .releaseReset :: rest) :
    step s = .next (resetRelease s) := step_of_reset hscript (.inl rfl)

theorem resetRelease_of_asserted {s : State} (h : s.inReset = true) :
    resetRelease s = engineReset { advance s with inReset := false } := if_pos h

/-- Settles O43: both events are `engineReset`, which keeps the script and the observed words. -/
theorem resetDiscardsThePendingCommand : Obligations.ResetDiscardsThePendingCommand := by
  constructor
  · intro s rest hscript
    exact ⟨_, step_assertReset hscript, engineAtReset_engineReset _, rfl, congrArg List.tail hscript, rfl⟩
  · intro s rest hscript hasserted
    rw [step_releaseReset hscript, resetRelease_of_asserted hasserted]
    exact ⟨_, rfl, engineAtReset_engineReset _, rfl, congrArg List.tail hscript, rfl⟩

/-! ### The round counter -/

theorem step_keeps_rc_le {s t : State} (hrc : s.rc.toNat ≤ 64) (h : step s = .next t) : t.rc.toNat ≤ 64 := by
  obtain ⟨i, -, hdone⟩ | ⟨rest, -, rfl⟩ | ⟨rest, -, rfl⟩ | ⟨op, rest, -, hop, hmove⟩ | ⟨-, -, rfl⟩ := step_cases h
  · obtain ⟨u, hexec, rfl⟩ := (completion_next_iff _ _).1 hdone
    have hle : u.rc.toNat ≤ 64 := exec_keeps_rc_le hexec hrc
    exact hle
  · exact Nat.zero_le 64
  · cases hasserted : s.inReset with
    | true =>
      rw [resetRelease_of_asserted hasserted]
      exact Nat.zero_le 64
    | false =>
      rw [resetRelease_of_not_asserted hasserted]
      exact hrc
  · obtain ⟨-, -, -, hkept, -, -⟩ := hostMove_effect hop hmove
    rw [hkept]
    exact hrc
  · exact hrc

theorem rc_of_assertReset {s t : State} (hhead : s.script.head? = some .assertReset) (h : step s = .next t) :
    t.rc = 0 := by
  obtain ⟨rest, hscript⟩ := List.head?_eq_some_iff.1 hhead
  rw [step_assertReset hscript] at h
  cases h
  rfl

/-- Settles O24: the commands by `rc_of_exec`, STATUS by its RC field, and the bound over each kind of step. -/
theorem roundCounterIsSetByItsCommands : Obligations.RoundCounterIsSetByItsCommands := by
  refine ⟨fun s hlt => exec_round_of_lt hlt, fun i s t h hguard => rc_of_exec h hguard, rfl,
    fun s t => rc_of_assertReset, fun s => ?_, fun s t => step_keeps_rc_le⟩
  have hclass : classify 0x008 = .status := classify_offStatus
  obtain ⟨-, -, -, -, -, hrc, -⟩ := statusWordHasItsFields s
  rw [hclass]
  exact hrc

/-! ### A command in flight -/

/-- Settles O47: with a command pending an access can neither store in M nor issue a command. -/
theorem hostCannotDisturbACommandInFlight : Obligations.HostCannotDisturbACommandInFlight := by
  intro s t i op rest hpend hturn hop h
  rw [step_of_hostTurn hturn] at h
  obtain ⟨hh, hv, hw, hrc, -, heffect⟩ := hostMove_effect hop h
  cases heffect with
  | keeps hm hkept _ => exact ⟨hh, hv, hw, hm, hrc, hkept.trans hpend⟩
  | stores _ _ _ _ _ hidle => cases hidle.symm.trans hpend
  | issues _ hidle => cases hidle.symm.trans hpend

/-! ### The writers of the registers -/

/-- A register that a command changed is one that it may write. -/
theorem writer_of_exec {i : Instr} {s t : State} (h : exec i s = .next t) :
    (t.h ≠ s.h → i = .init ∨ i = .accum ∨ i = .block) ∧
    (t.v ≠ s.v → i = .init ∨ i = .loadv ∨ i = .round ∨ i = .compress ∨ i = .block) ∧
    (t.w ≠ s.w → i = .init ∨ i = .expand ∨ i = .block) ∧ (t.m ≠ s.m → i = .init) := by
  obtain ⟨hm, hh, hv, hw, -⟩ := commandsWriteOnlyTheirRegisters i s t h
  cases i with
  | nop => simp [hm, hh, hv, hw]
  | init => simp
  | expand => simp [hm, hh, hv]
  | loadv => simp [hm, hh, hw]
  | round => simp [hm, hh, hw]
  | compress => simp [hm, hh, hw]
  | accum => simp [hm, hv, hw]
  | block => simp [hm]

/-- Settles O48: a completion writes what its command may, and an access writes no more than M. -/
theorem onlyTheirWritersChangeTheRegisters : Obligations.OnlyTheirWritersChangeTheRegisters := by
  intro s t h hnoreset
  obtain ⟨i, hturn, hdone⟩ | ⟨rest, hscript, -⟩ | ⟨rest, hscript, rfl⟩ | ⟨op, rest, hturn, hop, hmove⟩ | ⟨-, -, rfl⟩ :=
    step_cases h
  · obtain ⟨u, hexec, rfl⟩ := (completion_next_iff _ _).1 hdone
    obtain ⟨hh, hv, hw, hm⟩ := writer_of_exec hexec
    have hturn' {j : Instr} (hj : i = j) : s.engineTurn j := hj ▸ hturn
    exact ⟨fun hne => (hh hne).imp hturn' (Or.imp hturn' hturn'),
      fun hne => (hv hne).imp hturn' (Or.imp hturn' (Or.imp hturn' (Or.imp hturn' hturn'))),
      fun hne => (hw hne).imp hturn' (Or.imp hturn' hturn'), fun hne => .inl (hturn' (hm hne))⟩
  · exact absurd (.inl (by simp [hscript])) hnoreset
  · have hready : s.inReset = false := by
      simpa using fun hasserted => hnoreset (.inr ⟨by simp [hscript], hasserted⟩)
    simp [resetRelease_of_not_asserted hready]
  · obtain ⟨hh, hv, hw, -, -, heffect⟩ := hostMove_effect hop hmove
    refine ⟨fun hne => absurd hh hne, fun hne => absurd hv hne, fun hne => absurd hw hne, fun hne => .inr ?_⟩
    cases heffect with
    | keeps hm => exact absurd hm hne
    | issues _ _ hm => exact absurd hm hne
    | stores i off x hwrite hclass hidle =>
      exact ⟨i, off, x, rest, hwrite ▸ hturn, hidle, (classify_eq_iff off (.m i)).1 hclass⟩
  · simp

/-! ### An idle engine -/

theorem step_of_ended {s : State} (h : s.ended) : step s = .next s := by
  obtain ⟨hscript, hpend⟩ := h
  simp [step, nextMove, hscript, hpend]

/-- With an access next and nothing pending, a step that answers is that access. -/
theorem hostMove_of_step_idle {s t : State} {op : HostOp} {rest : List HostOp} (hpend : s.pend = none)
    (hscript : s.script = op :: rest) (h : step s = .next t) : hostMove op s = .next t := by
  have hmove : nextMove s = .host op := by simp [nextMove, hscript, hpend]
  rwa [step, hmove] at h

/-- Settles O49: an access that is no write leaves the machine's state. -/
theorem idleEngineHoldsItsState : Obligations.IdleEngineHoldsItsState := by
  refine ⟨fun s => step_of_ended, fun s t op rest hpend hscript hop hwrite h => ?_⟩
  obtain ⟨hh, hv, hw, hm, hrc, hkept, hill, hovr, haccerr, -⟩ :=
    hostMove_keeps_state_of_not_write hop hwrite (hostMove_of_step_idle hpend hscript h)
  exact ⟨hh, hv, hw, hm, hrc, hkept.trans hpend, hill, hovr, haccerr⟩

/-! ### The step of a pending command -/

/-- A placed command is due: no reset event is left before it, and no access is to fall before it. -/
theorem engineTurn_placeCommand (i : Instr) (x : Word) (s : State) : (placeCommand (some i) x s).engineTurn i := by
  refine ⟨rfl, rfl, .inr ⟨rfl, fun op hop => ?_⟩⟩
  have hnot := List.head?_dropWhile_not HostOp.isReset s.script
  rw [show (s.script.dropWhile HostOp.isReset).head? = some op from hop] at hnot
  simpa using hnot

theorem step_completes {s t : State} {i : Instr} (hturn : s.engineTurn i) (hexec : exec i s = .next t) :
    step s = .next (retire t) := by
  rw [step_of_engineTurn hturn, hexec, completion]

/-- Settles O3: on the engine's turn the step is the completion of the pending command. -/
theorem stepRunsThePendingCommand : Obligations.StepRunsThePendingCommand := by
  refine ⟨fun s t i hturn hexec => step_completes hturn hexec, fun s t nbits w i hdecode _ hexec => ?_⟩
  have hplaced : s.withFetchWord nbits w = placeCommand (some i) (BitVec.ofNat 32 w) s := by
    rw [State.withFetchWord, hdecode]
  have hturn := engineTurn_placeCommand i (BitVec.ofNat 32 w) s
  rw [← hplaced] at hturn
  have ⟨hpend, _⟩ := hturn
  exact ⟨hpend, step_completes hturn hexec⟩

end Sys2Proof.Machine
end

section
/-! Runs (70_reset_and_hazards.md R122, R124): a command in flight completes, a wait loop ends, and both orders of a
completion and a write. -/

namespace Sys2Proof.Machine

/-- A run from `s` reaches `t`. -/
def Reaches (s t : State) : Prop := ∃ n, core.run n s = .next t

theorem Reaches.refl (s : State) : Reaches s s := ⟨0, rfl⟩

theorem Reaches.trans {s t u : State} (hst : Reaches s t) (htu : Reaches t u) : Reaches s u := by
  obtain ⟨a, ha⟩ := hst
  obtain ⟨b, hb⟩ := htu
  exact ⟨a + b, (run_add ha).trans hb⟩

theorem reaches_of_step {s t : State} (h : step s = .next t) : Reaches s t := ⟨1, run_one_of_next h⟩

/-! ### A command in flight -/

/-- Each access that falls before the completion takes one off the latency that is left. -/
theorem completes_within_delay {i : Instr} {s : State} (hpend : s.pend = some i) (hready : s.inReset = false) :
    ∃ n, n ≤ s.delay ∧
      ((∃ t : State, core.run n s = .next t ∧ (t.engineTurn i ∨ ∃ op, t.script.head? = some op ∧ op.isReset = true)) ∨
        ∀ t, core.run n s ≠ .next t) := by
  induction hd : s.delay generalizing s with
  | zero =>
    refine ⟨0, le_rfl, .inl ⟨s, rfl, ?_⟩⟩
    by_cases hhead : ∃ op, s.script.head? = some op ∧ op.isReset = true
    · exact .inr hhead
    · exact .inl ⟨hpend, hready, .inr ⟨hd, fun op hop => by simpa using fun hreset => hhead ⟨op, hop, hreset⟩⟩⟩
  | succ d ih =>
    cases hscript : s.script with
    | nil => exact ⟨0, Nat.zero_le _, .inl ⟨s, rfl, .inl ⟨hpend, hready, .inl hscript⟩⟩⟩
    | cons op rest =>
      cases hreset : op.isReset with
      | true => exact ⟨0, Nat.zero_le _, .inl ⟨s, rfl, .inr ⟨op, by simp [hscript], hreset⟩⟩⟩
      | false =>
        have hturn : s.hostTurn op rest := ⟨hscript, hready, .inr (by omega)⟩
        by_cases hnext : ∃ t, step s = .next t
        · obtain ⟨t, ht⟩ := hnext
          obtain ⟨-, -, -, -, hready', heffect⟩ := hostMove_effect hreset ((step_of_hostTurn hturn).symm.trans ht)
          cases heffect with
          | keeps _ hkept hdelay =>
            obtain ⟨n, hn, hrun⟩ := ih (hkept.trans hpend) hready' (by omega)
            exact ⟨n + 1, by omega, by simpa only [run_succ_of_next n ht] using hrun⟩
          | stores _ _ _ _ _ hidle => cases hidle.symm.trans hpend
          | issues _ hidle => cases hidle.symm.trans hpend
        · exact ⟨1, by omega, .inr (run_succ_of_stop 0 fun t ht => hnext ⟨t, ht⟩)⟩

/-! ### The wait loop -/

/-- Bit 0 of STATUS is BUSY (R22). -/
theorem statusWord_getLsbD_zero (s : State) : (statusWord s).getLsbD 0 = s.busy := by
  obtain ⟨hbusy, -⟩ := statusWordHasItsFields s
  rw [Bool.eq_iff_iff, hbusy, State.busy, Option.isSome_iff_ne_none]

/-- From a pending command the loop polls while latency is left, the command completes, and one more poll ends the loop:
then the state is that of the completion but for the script. -/
theorem run_wait_pending {i : Instr} {s u : State} {rest : List HostOp} (hscript : s.script = .wait :: rest)
    (hready : s.inReset = false) (hpend : s.pend = some i) (hexec : exec i s = .next u) :
    ∃ n, n ≤ s.delay + 2 ∧ core.run n s = .next { u with pend := none, delay := 0, script := rest } := by
  induction hd : s.delay generalizing s u with
  | zero =>
    have hturn : s.engineTurn i := ⟨hpend, hready, .inr ⟨hd, by simp [hscript, HostOp.isReset]⟩⟩
    have hcontrol := sameControl_of_exec hexec
    have hloop : (retire u).script = .wait :: rest := hcontrol.script.trans hscript
    have hend : step (retire u) = .next { u with pend := none, delay := 0, script := rest } := by
      rw [step_wait_idle hloop (hcontrol.inReset.trans hready) (statusWord_getLsbD_zero _) rfl, advance_eq hloop]
      rfl
    exact ⟨2, le_rfl, (run_succ_of_next 1 (step_completes hturn hexec)).trans (run_one_of_next hend)⟩
  | succ d ih =>
    have hbusy : (statusWord s).getLsbD 0 = true := (statusWord_getLsbD_zero s).trans (busy_of_pend_some hpend)
    have hpoll : step s = .next (elapse s) := step_wait_busy hscript hready hbusy (by omega)
    have hexec' : exec i (elapse s) = .next (u.withControl (elapse s)) := exec_withControl (elapse s) hexec
    obtain ⟨n, hn, hrun⟩ := ih (s := elapse s) hscript hready hpend hexec' (by simp [hd])
    refine ⟨n + 1, by omega, ?_⟩
    have hcontrol := sameControl_of_exec hexec
    rw [run_succ_of_next n hpoll, hrun]
    simp [State.withControl, hcontrol.inReset, hcontrol.issues, hcontrol.draws, hcontrol.observed]

/-- Every wait loop ends, with nothing pending. -/
theorem run_wait {s : State} {rest : List HostOp} (hscript : s.script = .wait :: rest) (hready : s.inReset = false) :
    ∃ (n : Nat) (t : State), n ≤ s.delay + 2 ∧ core.run n s = .next t ∧ t.script = rest ∧ t.pend = none ∧
      t.inReset = false ∧ t.observed = s.observed := by
  cases hpend : s.pend with
  | none =>
    have hidle : (statusWord s).getLsbD 0 = false := (statusWord_getLsbD_zero s).trans (busy_of_pend_none hpend)
    exact ⟨1, advance s, by omega, run_one_of_next (step_wait_idle hscript hready hidle hpend),
      congrArg List.tail hscript, hpend, hready, rfl⟩
  | some i =>
    obtain ⟨u, hexec⟩ := exec_answers_next i s
    have hcontrol := sameControl_of_exec hexec
    obtain ⟨n, hn, hrun⟩ := run_wait_pending hscript hready hpend hexec
    exact ⟨n, _, hn, hrun, rfl, rfl, hcontrol.inReset.trans hready, hcontrol.observed⟩

/-- Settles O50: the latency that is left bounds the accesses before the completion, and the polls of a loop. -/
theorem everyIssuedCommandCompletes : Obligations.EveryIssuedCommandCompletes := by
  refine ⟨fun s i => completes_within_delay, fun s rest hscript hready => ?_⟩
  obtain ⟨n, t, hn, hrun, hscript', hpend, -⟩ := run_wait hscript hready
  exact ⟨n, t, hn, hrun, hscript', hpend⟩

/-- Settles O51: the loop ends in the state of the completion. -/
theorem waitShowsTheWholeResult : Obligations.WaitShowsTheWholeResult := by
  intro s u i rest hscript hready hpend hexec
  obtain ⟨n, -, hrun⟩ := run_wait_pending hscript hready hpend hexec
  exact ⟨n, _, hrun, rfl, rfl, rfl, rfl, rfl, rfl, rfl, rfl, rfl, rfl, (sameControl_of_exec hexec).observed⟩

/-! ### A completion and a write -/

/-- With no latency left BLOCK completes first, and the write finds the engine idle. -/
theorem run_completion_then_write {s : State} {x : Word} {i : Fin 16} {off : Offset} (hpend : s.pend = some .block)
    (hready : s.inReset = false) (hscript : s.script = [.wr .w32 off x]) (hclass : classify off = .m i)
    (hdelay : s.delay = 0) : ∃ t, core.run 2 s = .next t ∧ t.pend = none ∧ t.m[i] = x ∧ t.ovr = s.ovr ∧
      t.h = hashBlock s.h s.m := by
  have hturn : s.engineTurn .block := ⟨hpend, hready, .inr ⟨hdelay, by simp [hscript, HostOp.isReset]⟩⟩
  obtain ⟨u, hexec⟩ := exec_answers_next .block s
  have hfold : u.h = hashBlock s.h s.m := by
    cases hexec
    rfl
  obtain ⟨-, -, -, -, -, hovr, -⟩ := commandsWriteOnlyTheirRegisters .block s u hexec
  have hcontrol := sameControl_of_exec hexec
  have hwrite := step_mWrite_idle (s := retire u)
    ⟨hcontrol.script.trans hscript, hcontrol.inReset.trans hready, .inl rfl⟩ rfl hclass
  exact ⟨_, (run_succ_of_next 1 (step_completes hturn hexec)).trans (run_one_of_next hwrite), rfl,
    Vector.getElem_set_self .., hovr, hfold⟩

/-- With latency left the write falls before the completion and is dropped, and then BLOCK completes. -/
theorem run_write_then_completion {s : State} {x : Word} {i : Fin 16} {off : Offset} (hpend : s.pend = some .block)
    (hready : s.inReset = false) (hscript : s.script = [.wr .w32 off x]) (hclass : classify off = .m i)
    (hdelay : s.delay ≠ 0) : ∃ t, core.run 2 s = .next t ∧ t.pend = none ∧ t.m = s.m ∧ t.ovr = true ∧
      t.h = hashBlock s.h s.m := by
  have hturn : s.hostTurn (.wr .w32 off x) [] := ⟨hscript, hready, .inr hdelay⟩
  have hwrite := busyWriteToCmdOrMRaisesOvrOnly s off x [] .block hturn hpend
    (.inr ⟨i, (classify_eq_iff off _).1 hclass⟩)
  have hdone := step_completes (s := { s with script := [], delay := s.delay - 1, ovr := true })
    ⟨hpend, hready, .inl rfl⟩ (exec_block _)
  exact ⟨_, (run_succ_of_next 1 hwrite).trans (run_one_of_next hdone), rfl, rfl, rfl, rfl⟩

/-- Settles O52: the two orders, and BLOCK folds the same M into the same H in both. -/
theorem bothOrdersOfCompletionAndWrite : Obligations.BothOrdersOfCompletionAndWrite := by
  intro s x i off d hpend hready hscript hoff
  have hclass : classify off = .m i := (classify_eq_iff off _).2 hoff
  obtain ⟨t, ht, htpend, htm, htovr, hth⟩ :=
    run_completion_then_write (s := { s with delay := 0 }) hpend hready hscript hclass rfl
  obtain ⟨u, hu, hupend, hum, huovr, huh⟩ :=
    run_write_then_completion (s := { s with delay := d + 1 }) hpend hready hscript hclass (Nat.succ_ne_zero d)
  exact ⟨t, u, ht, hu, htpend, hupend, htm, htovr, hum, huovr, hth.trans huh.symm⟩

end Sys2Proof.Machine
end

section
/-! The platform (20_memory.md R30, R32, 60_exceptions.md R109, 45_host_digest.md R96): routing by address, and a
digest's exclusive use of its engine. -/

namespace Sys2Proof.Machine

/-! ### Routing -/

theorem routeFrom_eq_none {slots : List Slot} {addr : Nat} (h : ∀ sl ∈ slots, ¬sl.contains addr = true) (k : Nat) :
    routeFrom k slots addr = none := by
  induction slots generalizing k with
  | nil => rfl
  | cons sl rest ih =>
    obtain ⟨hmiss, hrest⟩ := List.forall_mem_cons.1 h
    rw [routeFrom_cons_miss hmiss, ih hrest]

/-- Windows that are apart share no address. -/
theorem not_contains_of_apart {a b : Slot} {addr : Nat} (hapart : a.apart b = true) (hb : b.contains addr = true) :
    ¬a.contains addr = true := by
  rw [Slot.apart_iff] at hapart
  rw [Slot.contains_iff] at hb ⊢
  omega

/-- No slot before the one that contains the address contains it too. -/
theorem routeFrom_eq_some {slots : List Slot} {j : Nat} {sl : Slot} {addr : Nat}
    (hapart : slots.Pairwise fun a b => a.apart b = true) (hj : slots[j]? = some sl) (hsl : sl.contains addr = true)
    (k : Nat) : routeFrom k slots addr = some (k + j, sl.offset addr) := by
  induction slots generalizing j k with
  | nil => simp at hj
  | cons first rest ih =>
    obtain ⟨hfirst, hrest⟩ := List.pairwise_cons.1 hapart
    cases j with
    | zero =>
      obtain rfl : first = sl := by simpa using hj
      exact routeFrom_cons_hit hsl
    | succ j =>
      have hj' : rest[j]? = some sl := by simpa using hj
      have hmem : sl ∈ rest := List.mem_of_getElem? hj'
      rw [routeFrom_cons_miss (not_contains_of_apart (hfirst sl hmem) hsl), ih hrest hj',
        Nat.add_right_comm, Nat.add_assoc]

theorem route_base_add {p : Platform} {k off : Nat} {sl : Slot} (hwf : p.wf = true) (hk : p.slots[k]? = some sl)
    (hoff : off < 0x400) : p.route (sl.base + off) = some (k, BitVec.ofNat 10 off) := by
  have hapart : p.slots.Pairwise fun a b => a.apart b = true := by simpa using (Bool.and_eq_true_iff.1 hwf).2
  have hsl : sl.contains (sl.base + off) = true := by
    rw [Slot.contains_iff]
    omega
  rw [Platform.route, routeFrom_eq_some hapart hk hsl, Slot.offset, Nat.zero_add, Nat.add_sub_cancel_left]

theorem submit_base_add {p : Platform} {k off : Nat} {sl : Slot} (ctx : Nat) (a : BusAccess) (hwf : p.wf = true)
    (hk : p.slots[k]? = some sl) (hoff : off < 0x400) :
    p.submit ctx (sl.base + off) a = p.submitOp ctx k (a.at (BitVec.ofNat 10 off)) := by
  rw [Platform.submit, route_base_add hwf hk hoff]

theorem isReset_busAccess (a : BusAccess) (off : Offset) : (a.at off).isReset = false := by
  cases a <;> rfl

/-- Settles O54: a window's address routes to its slot, which takes or refuses the access by its holder. -/
theorem addressesReachTheirInstance : Obligations.AddressesReachTheirInstance := by
  refine ⟨fun p k sl off => route_base_add, ?_, ?_, ?_⟩
  · intro p ctx addr a houtside
    have hmiss : p.route addr = none := by
      refine routeFrom_eq_none (fun sl hsl => ?_) 0
      have hout := houtside sl hsl
      rw [Slot.contains_iff]
      omega
    rw [Platform.submit, hmiss]
  · intro p k ctx off sl hd a hwf hk hoff hhold hother
    rw [submit_base_add ctx a hwf hk hoff]
    exact Platform.submitOp_of_held hk (isReset_busAccess a _) hhold hother
  · intro p k ctx off sl a op hwf hk hoff hheld haccess
    have hop : a.at (BitVec.ofNat 10 off) = op := by
      obtain ⟨width, rfl, rfl⟩ | ⟨width, x, rfl, rfl⟩ := haccess <;> rfl
    have hsubmit := submit_base_add ctx a hwf hk hoff
    rw [Platform.submitOp_of_admits hk (isReset_busAccess a _) ((Slot.admits_iff sl ctx).2 hheld), hop] at hsubmit
    exact ⟨_, _, hsubmit, Platform.setSlot_nInst .., fun j hj => Platform.setSlot_other p _ hj,
      Platform.setSlot_self _ hk, rfl, rfl⟩

/-! ### A step of one engine -/

theorem stepAt_changes_one_engine {p q : Platform} {k : Nat} (h : p.stepAt k = .next q) :
    ∃ sl t, p.slots[k]? = some sl ∧ step sl.engine = .next t ∧ q = p.setSlot k { sl with engine := t } := by
  unfold Platform.stepAt at h
  split at h
  · cases h
  · next sl hk =>
    split at h
    · next t ht =>
      cases h
      exact ⟨sl, t, hk, ht, rfl⟩
    · cases h
    · cases h

/-! ### The phases of a digest -/

/-- The end of R88's program: the check of STATUS and the eight reads of H. -/
def digestReads : List HostOp := opRd offStatus :: opRdh

/-- From the check on, the digest is under way until the last read, and then it has been read out. -/
theorem phase_of_digestReads : ∀ n ≤ 9,
    let ph := (digestReads.take n).foldl HoldPhase.after .digest
    if n < 9 then ph ≠ .held ∧ ph ≠ .readOut else ph = .readOut := by
  decide

/-- Before the check there are only writes and `wait`s, which go on with the digest. -/
def KeepsDigest (op : HostOp) : Prop := op = .wait ∨ ∃ width off x, op = .wr width off x

theorem phase_of_keepsDigest {ops : List HostOp} (h : ∀ op ∈ ops, KeepsDigest op) :
    ops.foldl HoldPhase.after .digest = .digest := by
  induction ops with
  | nil => rfl
  | cons op ops ih =>
    obtain ⟨hop, hops⟩ := List.forall_mem_cons.1 h
    have hafter : HoldPhase.digest.after op = .digest := by
      obtain rfl | ⟨width, off, x, rfl⟩ := hop
      · exact HoldPhase.digest_after_wait
      · exact HoldPhase.digest_after_write width off x
    rw [List.foldl_cons, hafter, ih hops]

/-- The phase after a part of the program, from its `clr` on: the digest ends with the last read and not before. -/
theorem phase_of_prefix {body issued rest : List HostOp} (hbody : ∀ op ∈ body, KeepsDigest op)
    (h : body ++ digestReads = issued ++ rest) :
    let ph := issued.foldl HoldPhase.after .digest
    (rest ≠ [] → ph ≠ .held ∧ ph ≠ .readOut) ∧ (rest = [] → ph = .readOut) := by
  obtain ⟨a, rfl, hreads⟩ | ⟨a, rfl, rfl⟩ := List.append_eq_append_iff.1 h
  · have hlength : a.length + rest.length = 9 := by
      rw [← List.length_append, ← hreads]
      rfl
    have ha : digestReads.take a.length = a := by rw [hreads, List.take_left]
    have hphase := phase_of_digestReads a.length (by omega)
    rw [ha] at hphase
    simp only [List.foldl_append, phase_of_keepsDigest hbody]
    cases rest with
    | nil =>
      rw [if_neg (by simp at hlength; omega)] at hphase
      exact ⟨fun hne => absurd rfl hne, fun _ => hphase⟩
    | cons op rest =>
      rw [if_pos (by simp at hlength; omega)] at hphase
      exact ⟨fun _ => hphase, fun hnil => nomatch hnil⟩
  · have hissued : ∀ op ∈ issued, KeepsDigest op := fun op hop => hbody op (List.mem_append_left _ hop)
    rw [phase_of_keepsDigest hissued]
    exact ⟨fun _ => ⟨by decide, by decide⟩, fun hnil => by simp [digestReads] at hnil⟩

/-! ### The digest's hold -/

/-- What R88's program does from its `clr` to its check of STATUS. -/
def digestBody (how : Nat → BlockForm) (msg : List Byte) : List HostOp :=
  [opCmd .init, .wait] ++ blockLoop how (padBytes msg)

theorem digestProgram_eq_ok {how : Nat → BlockForm} {msg : List Byte} {prog : List HostOp}
    (h : digestProgram how msg = .ok prog) :
    msg.length < 2 ^ 61 ∧ prog = [.wait, opClr] ++ digestBody how msg ++ [opRd offStatus] := by
  by_cases hlt : msg.length < 2 ^ 61
  · rw [digestProgram_of_lt how hlt] at h
    cases h
    exact ⟨hlt, rfl⟩
  · rw [digestProgram_of_ge how hlt] at h
    cases h

theorem keepsDigest_of_mem_digestBody {how : Nat → BlockForm} {msg : List Byte} :
    ∀ op ∈ digestBody how msg, KeepsDigest op := by
  intro op hop
  obtain hinit | hloop := List.mem_append.1 hop
  · obtain rfl | rfl : op = opCmd .init ∨ op = .wait := by simpa using hinit
    · exact .inr ⟨_, _, _, rfl⟩
    · exact .inl rfl
  · obtain rfl | ⟨i, rfl⟩ | ⟨i, x, rfl⟩ := mem_blockLoop hloop
    · exact .inl rfl
    · exact .inr ⟨_, _, _, rfl⟩
    · exact .inr ⟨_, _, _, rfl⟩

theorem KeepsDigest.not_reset {op : HostOp} (h : KeepsDigest op) : op.isReset = false := by
  obtain rfl | ⟨width, off, x, rfl⟩ := h <;> rfl

/-- R88's program has no reset event. -/
theorem isReset_of_mem_digest {how : Nat → BlockForm} {msg : List Byte} :
    ∀ op ∈ [.wait, opClr] ++ (digestBody how msg ++ digestReads), op.isReset = false := by
  have hstart : ∀ op ∈ [.wait, opClr], op.isReset = false := by decide
  have hreads : ∀ op ∈ digestReads, op.isReset = false := by decide
  intro op hop
  obtain hop | hop := List.mem_append.1 hop
  · exact hstart op hop
  · obtain hop | hop := List.mem_append.1 hop
    · exact (keepsDigest_of_mem_digestBody op hop).not_reset
    · exact hreads op hop

/-- A part of the program that contains its `clr` begins with the first `wait` and the `clr`. -/
theorem issued_eq_of_clr_mem {tail issued rest : List HostOp} (h : [.wait, opClr] ++ tail = issued ++ rest)
    (hclr : opClr ∈ issued) : ∃ part, issued = [.wait, opClr] ++ part ∧ tail = part ++ rest := by
  obtain _ | ⟨op, _ | ⟨op', part⟩⟩ := issued
  · cases hclr
  · obtain ⟨rfl, -⟩ := List.cons.inj h
    cases List.mem_singleton.1 hclr
  · obtain ⟨rfl, hrest⟩ := List.cons.inj h
    obtain ⟨rfl, htail⟩ := List.cons.inj hrest
    exact ⟨part, rfl, htail⟩

/-- From the `clr` on the context holds the slot, whether it held it before or nobody did. -/
theorem hold_after_clr {ctx : Nat} {hold : Option Hold} (hheld : ∀ hd, hold = some hd → hd.ctx = ctx)
    (part : List HostOp) : ([.wait, opClr] ++ part).foldl (fun hd op => holdAfter ctx op hd) hold =
      some ⟨ctx, part.foldl HoldPhase.after .digest⟩ := by
  have hclr : [.wait, opClr].foldl (fun hd op => holdAfter ctx op hd) hold = some ⟨ctx, .digest⟩ := by
    cases hold with
    | none => rfl
    | some hd =>
      rw [holdAll_some, ← hheld hd rfl, List.foldl_cons, List.foldl_cons, List.foldl_nil, HoldPhase.after_clr]
  rw [List.foldl_append, hclr, holdAll_some]

/-! ### Who is refused -/

theorem claim_of_held {p : Platform} {c k : Nat} {sl : Slot} {hd : Hold} (hk : p.slots[k]? = some sl)
    (hhold : sl.hold = some hd) (hc : hd.ctx ≠ c) : p.claim c k = .refused .instanceInUse := by
  simp [Platform.claim, hk, hhold, hc]

theorem release_of_held {p : Platform} {c k : Nat} {sl : Slot} {hd : Hold} (hk : p.slots[k]? = some sl)
    (hhold : sl.hold = some hd) (hc : hd.ctx ≠ c) : p.release c k = .refused .instanceInUse := by
  simp [Platform.release, hk, hhold, hc]

theorem release_own {p : Platform} {ctx k : Nat} {sl : Slot} {ph : HoldPhase} (hk : p.slots[k]? = some sl)
    (hhold : sl.hold = some ⟨ctx, ph⟩) : p.release ctx k =
      if sl.mayRelease ph then .next (p.setSlot k { sl with hold := none }) else .refused .digestUnderWay := by
  simp [Platform.release, hk, hhold]

/-- Within a digest the slot may be given up only after EngineError (R88). -/
theorem mayRelease_eq_false {sl : Slot} {ph : HoldPhase} (hph : ph ≠ .held ∧ ph ≠ .readOut)
    (hclear : sl.engine.script = [] → ∀ x, sl.engine.observed.getLast? = some x → x.extractLsb' 1 3 = 0) :
    sl.mayRelease ph = false := by
  obtain ⟨hheld, hreadOut⟩ := hph
  cases ph with
  | held => exact absurd rfl hheld
  | readOut => exact absurd rfl hreadOut
  | digest | reading => rfl
  | checked =>
    by_cases hscript : sl.engine.script = []
    · have hlast := hclear hscript
      cases hobserved : sl.engine.observed.getLast? with
      | none => simp [Slot.mayRelease, Slot.engineErrorSeen, hobserved]
      | some x => simp [Slot.mayRelease, Slot.engineErrorSeen, hobserved, hlast x hobserved]
    · simp [Slot.mayRelease, Slot.engineErrorSeen, hscript]

theorem release_within_digest {p : Platform} {ctx k : Nat} {sl : Slot} {ph : HoldPhase} (hk : p.slots[k]? = some sl)
    (hhold : sl.hold = some ⟨ctx, ph⟩) (hph : ph ≠ .held ∧ ph ≠ .readOut)
    (hclear : sl.engine.script = [] → ∀ x, sl.engine.observed.getLast? = some x → x.extractLsb' 1 3 = 0) :
    p.release ctx k = .refused .digestUnderWay := by
  rw [release_own hk hhold, mayRelease_eq_false hph hclear]
  rfl

/-- Settles O53: a step changes one engine; and once its `clr` is issued a digest holds its slot, in a phase that ends
with the last read. -/
theorem instancesAreIndependent : Obligations.InstancesAreIndependent := by
  constructor
  · intro p q k h
    obtain ⟨sl, t, hk, ht, rfl⟩ := stepAt_changes_one_engine h
    exact ⟨Platform.setSlot_nInst .., fun j hj => Platform.setSlot_other p _ hj, sl, _, hk,
      Platform.setSlot_self _ hk, ht, rfl, rfl⟩
  · intro p k ctx sl how msg prog issued rest hk hheld hprog hparts hclr
    obtain ⟨-, rfl⟩ := digestProgram_eq_ok hprog
    have hsplit : [.wait, opClr] ++ (digestBody how msg ++ digestReads) = issued ++ rest := by
      rw [← hparts]
      simp [digestReads]
    have hnoreset : ∀ op ∈ issued, op.isReset = false := fun op hop =>
      isReset_of_mem_digest op (hsplit ▸ List.mem_append_left rest hop)
    obtain ⟨part, rfl, hpart⟩ := issued_eq_of_clr_mem hsplit hclr
    obtain ⟨hunderWay, hreadOut⟩ := phase_of_prefix keepsDigest_of_mem_digestBody hpart
    have hsubmit := Platform.submitAll_of_admits hnoreset hk ((Slot.admits_iff sl ctx).2 hheld)
    have hk' := Platform.setSlot_self (([.wait, opClr] ++ part).foldl (fun a op => a.accept ctx op) sl) hk
    have hhold := (Slot.acceptAll_hold ctx ([.wait, opClr] ++ part) sl).trans (hold_after_clr hheld part)
    refine ⟨_, _, _, hsubmit, hk', hhold, Slot.acceptAll_engine .., ?_, ?_, ?_, ?_⟩
    · exact fun c op hc hop => Platform.submitOp_of_held hk' hop hhold hc.symm
    · exact fun c hc => ⟨claim_of_held hk' hhold hc.symm, release_of_held hk' hhold hc.symm⟩
    · exact fun hrest e hclear =>
        release_within_digest (Platform.setSlot_self _ hk') hhold (hunderWay hrest) hclear
    · intro hrest
      rw [release_own hk' hhold, hreadOut hrest]
      exact ⟨_, rfl, Platform.setSlot_self _ hk'⟩

end Sys2Proof.Machine
end

section
/-! The host's output and its bounds (45_host_digest.md R82 to R85, R92, R93): the bit length, the digest's bytes and
their hexadecimal form. -/

namespace Sys2Proof.Machine

/-! ### The bit length -/

/-- The eight bytes of a number below `2^64` are its digits in base 256, most significant first. -/
theorem foldl_be64 {x : Nat} (hx : x < 2 ^ 64) : (be64 x).foldl (fun n b => n * 256 + b.toNat) 0 = x := by
  simp only [be64, List.foldl_cons, List.foldl_nil, BitVec.toNat_ofNat, Nat.shiftRight_eq_div_pow]
  omega

theorem drop_padBytes (msg : List Byte) :
    (padBytes msg).drop (msg.length + 1 + padZeros msg.length) = be64 (8 * msg.length) := by
  rw [padBytes_eq_append, ← length_beforeBitLength]
  exact List.drop_left

/-- Settles O57: what is left after the zeros is `BE64` of the bit length. -/
theorem paddingEndsWithTheBitLength : Obligations.PaddingEndsWithTheBitLength := by
  intro msg hlt
  rw [drop_padBytes]
  exact ⟨rfl, foldl_be64 (by omega)⟩

/-! ### The bound -/

theorem digest_of_ge {msg : List Byte} (h : ¬msg.length < 2 ^ 61) : digest msg = .error .inputTooLarge := by
  rw [digest, pad_of_ge h]

/-- R88's program makes 32-bit accesses only. -/
theorem scriptWellFormed_digestProgram (how : Nat → BlockForm) (msg : List Byte) :
    scriptWellFormed ([.wait, opClr, opCmd .init, .wait] ++ blockLoop how (padBytes msg) ++ [opRd offStatus]) =
      true := by
  have hloop : (blockLoop how (padBytes msg)).all HostOp.wellFormed = true := by
    rw [List.all_eq_true]
    intro op hop
    obtain rfl | ⟨i, rfl⟩ | ⟨i, x, rfl⟩ := mem_blockLoop hop <;> rfl
  rw [scriptWellFormed, List.all_append, List.all_append, hloop]
  rfl

/-- Settles O58: `8 L` reaches `2^64` where `L` reaches `2^61`. -/
theorem inputTooLargeIsSignalled : Obligations.InputTooLargeIsSignalled := by
  intro msg how
  constructor
  · intro hlarge
    have hge : ¬msg.length < 2 ^ 61 := by omega
    exact ⟨digest_of_ge hge, digestProgram_of_ge how hge⟩
  · intro hsmall
    have hlt : msg.length < 2 ^ 61 := by omega
    exact ⟨⟨_, digest_of_lt hlt⟩, _, digestProgram_of_lt how hlt, scriptWellFormed_digestProgram how msg⟩

/-! ### The output forms -/

/-- The eight words of a vector, one by one. -/
theorem toList_words8 (h : Words8) : h.toList = [h[0], h[1], h[2], h[3], h[4], h[5], h[6], h[7]] := by
  apply List.ext_getElem
  · simp
  · intro i hi hi'
    rw [Vector.getElem_toList]
    simp only [List.length_cons, List.length_nil] at hi'
    interval_cases i <;> rfl

theorem digestBytes_eq (h : Words8) : digestBytes h = bytes32 h[0] ++ bytes32 h[1] ++ bytes32 h[2] ++ bytes32 h[3] ++
    bytes32 h[4] ++ bytes32 h[5] ++ bytes32 h[6] ++ bytes32 h[7] := by
  rw [digestBytes, toList_words8]
  simp

theorem digestBytes_length (h : Words8) : (digestBytes h).length = 32 := by
  rw [digestBytes_eq]
  rfl

theorem hexChars_append (a b : List Byte) : hexChars (a ++ b) = hexChars a ++ hexChars b := List.flatMap_append

theorem hexChars_cons (x : Byte) (bytes : List Byte) : hexChars (x :: bytes) =
    hexDigit (x.extractLsb' 4 4) :: hexDigit (x.extractLsb' 0 4) :: hexChars bytes := rfl

theorem hexChars_length (bytes : List Byte) : (hexChars bytes).length = 2 * bytes.length := by
  induction bytes with
  | nil => rfl
  | cons x bytes ih =>
    rw [hexChars_cons, List.length_cons, List.length_cons, ih, List.length_cons]
    omega

theorem hexDigit_mem (x : BitVec 4) : hexDigit x ∈ "0123456789abcdef".toList := by
  revert x
  decide

theorem mem_hexChars {c : Char} {bytes : List Byte} (hc : c ∈ hexChars bytes) : c ∈ "0123456789abcdef".toList := by
  obtain ⟨x, -, hx⟩ := List.mem_flatMap.1 hc
  obtain rfl | rfl : c = hexDigit (x.extractLsb' 4 4) ∨ c = hexDigit (x.extractLsb' 0 4) := by simpa using hx
  · exact hexDigit_mem _
  · exact hexDigit_mem _

/-- Settles O59: a digest that is answered is the bytes of eight words, and each byte gives two digits. -/
theorem digestIsThirtyTwoBytes : Obligations.DigestIsThirtyTwoBytes := by
  refine ⟨digestBytes_eq, fun _ => rfl, ?_, ?_, rfl, rfl, rfl, rfl, rfl, rfl, rfl, rfl, rfl, rfl, rfl, rfl, rfl, rfl,
    rfl, rfl⟩
  · intro msg d hd
    have hlt : msg.length < 2 ^ 61 := by
      by_contra hge
      cases (digest_of_ge hge).symm.trans hd
    cases (digest_of_lt hlt).symm.trans hd
    exact ⟨digestBytes_length _, by rw [hexChars_length, digestBytes_length], fun c => mem_hexChars⟩
  · intro a b x
    rw [hexChars_append, hexChars_cons]

end Sys2Proof.Machine
end

section
/-! The digest procedure on an engine (45_host_digest.md R86 to R90, R95): what each part of the host's program leaves,
from one state in which the engine is ready to the next. -/

namespace Sys2Proof.Machine

/-! ### Ready for the host's next access -/

/-- Nothing is pending, reset is not asserted and no flag is set; the host goes on with `script`, having observed
`observed`. -/
structure Ready (s : State) (script : List HostOp) (observed : List Word) : Prop where
  script : s.script = script
  inReset : s.inReset = false
  pend : s.pend = none
  flags : s.flagsClear
  observed : s.observed = observed

theorem Ready.hostTurn {s : State} {op : HostOp} {rest : List HostOp} {obs : List Word} (h : Ready s (op :: rest) obs) :
    s.hostTurn op rest := ⟨h.script, h.inReset, .inl h.pend⟩

/-- A command and its `wait` leave the registers as the command's body does, and no flag set. -/
theorem run_cmd_wait {s u : State} {i : Instr} {rest : List HostOp} {obs : List Word}
    (hs : Ready s (opCmd i :: .wait :: rest) obs) (hguard : guardOk i s.rc = true) (hexec : exec i s = .next u) :
    ∃ t, Reaches s t ∧ Ready t rest obs ∧ SameData u t := by
  have hissue := step_cmdWrite_legal hs.hostTurn hs.pend hguard
  obtain ⟨hill, hovr, haccerr⟩ := hs.flags
  obtain ⟨-, -, -, -, -, hovr', haccerr', hill', -⟩ := commandsWriteOnlyTheirRegisters i s u hexec
  have hexec' := exec_withControl (issue i { s with script := .wait :: rest }) hexec
  obtain ⟨n, -, hrun⟩ :=
    run_wait_pending (s := issue i { s with script := .wait :: rest }) rfl hs.inReset rfl hexec'
  exact ⟨_, (reaches_of_step hissue).trans ⟨n, hrun⟩,
    ⟨rfl, hs.inReset, rfl, ⟨(hill' hguard).trans hill, hovr'.trans hovr, haccerr'.trans haccerr⟩, hs.observed⟩,
    rfl, rfl, rfl, rfl, rfl⟩

/-! ### One block -/

/-- M after the writes of words of the block `b` at the indices `is`. -/
def loadWords (b : Words16) (is : List (Fin 16)) (m : Words16) : Words16 :=
  is.foldl (fun m i => m.set i.val b[i] i.isLt) m

/-- The sixteen writes leave nothing of the M before (R19). -/
theorem loadWords_finRange (b m : Words16) : loadWords b (List.finRange 16) m = b := by
  have hloaded : ∀ i, i < 16 → ∀ h : i < 16, (loadWords b (List.finRange 16) m)[i] = b[i] := by
    refine foldl_finRange_induction (P := fun n m' => ∀ i, i < n → ∀ h : i < 16, m'[i] = b[i]) (by simp) ?_
    intro n m' hm' i hi h
    obtain hold | rfl : i < n.val ∨ i = n.val := by omega
    · rw [Vector.getElem_set_ne _ _ (by omega), hm' i hold h]
    · exact Vector.getElem_set_self ..
  exact Vector.ext fun i hi => hloaded i hi hi

/-- A write to M by a host that finds the engine ready. -/
theorem step_ldm_ready {s : State} {i : Fin 16} {x : Word} {rest : List HostOp} {obs : List Word}
    (hs : Ready s (opLdm i x :: rest) obs) :
    ∃ t, step s = .next t ∧ Ready t rest obs ∧ t.h = s.h ∧ t.m = s.m.set i.val x i.isLt :=
  ⟨_, step_mWrite_idle hs.hostTurn hs.pend (classify_offM i),
    ⟨rfl, hs.inReset, hs.pend, hs.flags, hs.observed⟩, rfl, rfl⟩

theorem run_ldms {b : Words16} {is : List (Fin 16)} {s : State} {rest : List HostOp} {obs : List Word}
    (hs : Ready s ((is.map fun i => opLdm i b[i]) ++ rest) obs) :
    ∃ t, Reaches s t ∧ Ready t rest obs ∧ t.h = s.h ∧ t.m = loadWords b is s.m := by
  induction is generalizing s with
  | nil => exact ⟨s, .refl s, hs, rfl, rfl⟩
  | cons i is ih =>
    obtain ⟨t, hwrite, ht, hh, hm⟩ := step_ldm_ready hs
    obtain ⟨u, hreach, hu, hh', hm'⟩ := ih ht
    exact ⟨u, (reaches_of_step hwrite).trans hreach, hu, hh'.trans hh, hm'.trans (congrArg (loadWords b is) hm)⟩

theorem run_ldblk {b : Words16} {s : State} {rest : List HostOp} {obs : List Word}
    (hs : Ready s (opLdblk b ++ rest) obs) : ∃ t, Reaches s t ∧ Ready t rest obs ∧ t.h = s.h ∧ t.m = b := by
  obtain ⟨t, hreach, ht, hh, hm⟩ := run_ldms hs
  exact ⟨t, hreach, ht, hh, hm.trans (loadWords_finRange b s.m)⟩

theorem run_block {s : State} {rest : List HostOp} {obs : List Word}
    (hs : Ready s ([opCmd .block, .wait] ++ rest) obs) :
    ∃ t, Reaches s t ∧ Ready t rest obs ∧ t.h = hashBlock s.h s.m := by
  obtain ⟨t, hreach, ht, hsame⟩ := run_cmd_wait hs rfl (exec_block s)
  exact ⟨t, hreach, ht, hsame.h.symm⟩

/-- EXPAND, COMPRESS and ACCUM, each with its `wait`: ACCUM finds RC at 64 and V made from the same H (R80). -/
theorem run_stages {s : State} {rest : List HostOp} {obs : List Word}
    (hs : Ready s ([opCmd .expand, .wait, opCmd .compress, .wait, opCmd .accum, .wait] ++ rest) obs) :
    ∃ t, Reaches s t ∧ Ready t rest obs ∧ t.h = hashBlock s.h s.m := by
  obtain ⟨t, hreach, ht, hexpanded⟩ := run_cmd_wait hs rfl (exec_expand s)
  have hcompress : exec .compress t = .next { t with v := compress t.h t.w, rc := 64 } := rfl
  obtain ⟨u, hreach', hu, hcompressed⟩ := run_cmd_wait ht rfl hcompress
  have hrc : u.rc.toNat = 64 := by
    rw [← hcompressed.rc]
    rfl
  obtain ⟨r, hreach'', hr, hfolded⟩ := run_cmd_wait hu (by simp [guardOk, hrc]) (exec_accum_of_eq hrc)
  refine ⟨r, (hreach.trans hreach').trans hreach'', hr, ?_⟩
  calc r.h = accumulate u.h u.v := hfolded.h.symm
    _ = accumulate t.h (compress t.h t.w) := by rw [← hcompressed.h, ← hcompressed.v]
    _ = hashBlock s.h s.m := by rw [← hexpanded.h, ← hexpanded.w, hashBlock]

/-- One turn of R88's block loop folds its block into H, in either form. -/
theorem run_blockProgram {how : BlockForm} {b : Words16} {s : State} {rest : List HostOp} {obs : List Word}
    (hs : Ready s (blockProgram how b ++ rest) obs) :
    ∃ t, Reaches s t ∧ Ready t rest obs ∧ t.h = hashBlock s.h b := by
  rw [blockProgram, List.append_assoc] at hs
  obtain ⟨t, hload, ht, hh, hm⟩ := run_ldblk hs
  have hcommands : ∃ u, Reaches t u ∧ Ready u rest obs ∧ u.h = hashBlock t.h t.m := by
    cases how with
    | block => exact run_block ht
    | stages => exact run_stages ht
  obtain ⟨u, hreach, hu, hfolded⟩ := hcommands
  exact ⟨u, hload.trans hreach, hu, by rw [hfolded, hh, hm]⟩

/-! ### The whole program -/

theorem run_blocks {how : Nat → BlockForm} {padded : List Byte} {bs : List Nat} {s : State} {rest : List HostOp}
    {obs : List Word}
    (hs : Ready s ((bs.flatMap fun b => blockProgram (how b) (blockWords padded b)) ++ rest) obs) :
    ∃ t, Reaches s t ∧ Ready t rest obs ∧ t.h = (bs.map (blockWords padded)).foldl hashBlock s.h := by
  induction bs generalizing s with
  | nil => exact ⟨s, .refl s, hs, rfl⟩
  | cons b bs ih =>
    rw [List.flatMap_cons, List.append_assoc] at hs
    obtain ⟨t, hfirst, ht, hh⟩ := run_blockProgram hs
    obtain ⟨u, hreach, hu, hlast⟩ := ih ht
    exact ⟨u, hfirst.trans hreach, hu, by rw [hlast, hh, List.map_cons, List.foldl_cons]⟩

/-- A `clr` makes an idle engine ready, whatever its flags. -/
theorem step_clr {s : State} {rest : List HostOp} (hscript : s.script = opClr :: rest) (hready : s.inReset = false)
    (hpend : s.pend = none) : ∃ t, step s = .next t ∧ Ready t rest s.observed :=
  ⟨_, step_statusWrite ⟨hscript, hready, .inl hpend⟩,
    ⟨rfl, hready, hpend, ⟨Bool.and_false _, Bool.and_false _, Bool.and_false _⟩, rfl⟩⟩

/-- R88's start makes any engine ready, with H at IV: the `wait` lets a pending command complete, `clr` clears what
flags it finds, and INIT forgets the rest. -/
theorem run_start {s : State} {rest : List HostOp} (hscript : s.script = [.wait, opClr, opCmd .init, .wait] ++ rest)
    (hready : s.inReset = false) : ∃ t, Reaches s t ∧ Ready t rest s.observed ∧ t.h = initialHash := by
  obtain ⟨n, t, -, hrun, hscript', hpend, hready', hobserved⟩ := run_wait hscript hready
  obtain ⟨u, hclr, hu⟩ := step_clr hscript' hready' hpend
  have hinit : exec .init u = execInit u := rfl
  obtain ⟨r, hreach, hr, hsame⟩ := run_cmd_wait hu rfl hinit
  rw [hobserved] at hr
  exact ⟨r, (Reaches.trans ⟨n, hrun⟩ (reaches_of_step hclr)).trans hreach, hr, hsame.h.symm⟩

/-- A read by a host that finds the engine ready. -/
theorem step_rd_ready {s : State} {off : Offset} {rest : List HostOp} {obs : List Word}
    (hs : Ready s (opRd off :: rest) obs) :
    ∃ t, step s = .next t ∧ Ready t rest (obs ++ [readValue (classify off) s]) ∧ t.h = s.h :=
  ⟨_, step_read_known hs.hostTurn (by simp [busy_of_pend_none hs.pend]),
    ⟨rfl, hs.inReset, hs.pend, hs.flags, congrArg (· ++ _) hs.observed⟩, rfl⟩

theorem run_rdh {js : List (Fin 8)} {s : State} {obs : List Word} (hs : Ready s (js.map fun j => opRd (offH j)) obs) :
    ∃ t, Reaches s t ∧ Ready t [] (obs ++ js.map fun j => s.h[j]) := by
  induction js generalizing s obs with
  | nil => exact ⟨s, .refl s, by simpa using hs⟩
  | cons j js ih =>
    obtain ⟨t, hread, ht, hh⟩ := step_rd_ready hs
    have hvalue : readValue (classify (offH j)) s = s.h[j] := by
      rw [classify_offH]
      exact if_neg (by simp [busy_of_pend_none hs.pend])
    obtain ⟨u, hreach, hu⟩ := ih ht
    refine ⟨u, (reaches_of_step hread).trans hreach, ?_⟩
    rwa [hvalue, hh, List.append_assoc, List.singleton_append] at hu

/-- With no flag set STATUS[3:1] reads 0 (R104). -/
theorem statusWord_errorBits_of_flagsClear {s : State} (h : s.flagsClear) : (statusWord s).extractLsb' 1 3 = 0 := by
  obtain ⟨hill, hovr, haccerr⟩ := h
  have hbusy := s.busy.toNat_le
  have hword := statusWord_toNat s
  apply BitVec.eq_of_toNat_eq
  rw [extractLsb'_toNat_eq]
  simp only [hill, hovr, haccerr, Bool.toNat_false] at hword
  show _ = 0
  omega

/-- The program up to its read of STATUS. -/
theorem run_digestProgram {how : Nat → BlockForm} {msg : List Byte} {s : State} (hready : s.inReset = false)
    (hscript : s.script = [.wait, opClr] ++ digestBody how msg ++ [opRd offStatus]) :
    ∃ t status, Reaches s t ∧ Ready t [] (s.observed ++ [status]) ∧ status.extractLsb' 1 3 = 0 ∧
      t.h = hashBlocks (blocksOf (padBytes msg)) := by
  obtain ⟨a, hstart, ha, hiv⟩ := run_start (rest := blockLoop how (padBytes msg) ++ [opRd offStatus])
    (hscript.trans (by simp [digestBody])) hready
  obtain ⟨b, hblocks, hb, hh⟩ := run_blocks ha
  obtain ⟨t, hread, ht, hkept⟩ := step_rd_ready hb
  rw [classify_offStatus] at ht
  refine ⟨t, _, (hstart.trans hblocks).trans (reaches_of_step hread), ht,
    statusWord_errorBits_of_flagsClear hb.flags, ?_⟩
  rw [hkept, hh, hiv, hashBlocks, blocksOf]

/-! ### The chain of blocks -/

/-- A sequence that folds the blocks one by one passes through the hash states of R91. -/
theorem hashBlocks_eq_of_chain {padded : List Byte} {hs : Nat → Words8} (hstart : hs 0 = initialHash)
    (hchain : ∀ b, b < blockCount padded → hs (b + 1) = hashBlock (hs b) (blockWords padded b)) :
    hashBlocks (blocksOf padded) = hs (blockCount padded) := by
  have hupTo : ∀ n ≤ blockCount padded,
      ((List.range n).map (blockWords padded)).foldl hashBlock initialHash = hs n := by
    intro n hn
    induction n with
    | zero => exact hstart.symm
    | succ n ih =>
      rw [List.range_succ, List.map_append, List.foldl_append, ih (by omega), hchain n hn]
      rfl
  exact hupTo _ le_rfl

theorem blockWords_getElem {padded : List Byte} {b : Nat} (i : Fin 16) (h : 64 * b + 64 ≤ padded.length) :
    (blockWords padded b)[i] = be32 (padded[64 * b + 4 * i.val]'(by omega)) (padded[64 * b + 4 * i.val + 1]'(by omega))
      (padded[64 * b + 4 * i.val + 2]'(by omega)) (padded[64 * b + 4 * i.val + 3]'(by omega)) := by
  rw [blockWords, Fin.getElem_fin, Vector.getElem_ofFn]
  simp only [List.getD_eq_getElem?_getD]
  repeat rw [List.getElem?_eq_getElem (by omega), Option.getD_some]

theorem errorBits_ne_zero {status : Word}
    (h : status.getLsbD 1 = true ∨ status.getLsbD 2 = true ∨ status.getLsbD 3 = true) :
    status.extractLsb' 1 3 ≠ 0 := by
  intro hzero
  have hbit (k : Nat) (hk : k < 3) : status.getLsbD (1 + k) = false := by
    have hk' := congrArg (fun x => x.getLsbD k) hzero
    simpa [BitVec.getLsbD_extractLsb', hk] using hk'
  obtain h | h | h := h
  · exact absurd (h.symm.trans (hbit 0 (by omega))) (by decide)
  · exact absurd (h.symm.trans (hbit 1 (by omega))) (by decide)
  · exact absurd (h.symm.trans (hbit 2 (by omega))) (by decide)

/-- Settles O60: the program ends with H the chained hash state and no flag set, and the reads observe that H. -/
theorem hostProcedureComputesTheDigest : Obligations.HostProcedureComputesTheDigest := by
  refine ⟨fun padded b i h => blockWords_getElem i h, ?_,
    fun status h => digestContinue_of_set (errorBits_ne_zero h)⟩
  intro s msg how p hp hready hscript
  obtain ⟨hlt, rfl⟩ := digestProgram_eq_ok hp
  obtain ⟨t, status, ⟨n, hrun⟩, ht, hclear, hh⟩ := run_digestProgram hready hscript
  have htRead : Ready { t with script := opRdh } opRdh t.observed := ⟨rfl, ht.inReset, ht.pend, ht.flags, rfl⟩
  obtain ⟨u, ⟨m, hrun'⟩, hu⟩ := run_rdh htRead
  have hwords : ((List.finRange 8).map fun j => t.h[j]) = (hashBlocks (blocksOf (padBytes msg))).toList := by
    rw [← hh, toList_words8]
    rfl
  exact ⟨n, t, status, hrun, ⟨ht.script, ht.pend⟩, ht.observed, digestContinue_of_clear hclear, m, u, _, hrun',
    ⟨hu.script, hu.pend⟩, hu.observed.trans (congrArg (t.observed ++ ·) hwords), digest_of_lt hlt,
    fun hs hstart hchain => hashBlocks_eq_of_chain hstart hchain⟩

end Sys2Proof.Machine
end
